-- ==== Sys2Proof/Word.lean ====
section
/-! DEFINITION. The machine's word. -/

namespace Sys2Proof

/-- The 16-bit word: the only unit of memory and of every register (rules R3, R4, R30).
`v.toNat` is the spec's `u(v)`, `v.toInt` its `s(v)` (00_scope.md section 5.1); `+` and `-` wrap, as `wrap16` does. -/
abbrev Word := BitVec 16

end Sys2Proof
end

