-- ==== Sys2Proof/Config.lean ====
section
/-! DEFINITION. What the spec leaves as parameters of a machine (00_scope.md section 4): fixed for one machine, written by no
instruction. State carries one `Config`, so every statement about all states holds for every value of every parameter. Beside them the one
free value: what an endless stream of hardware interrupts delivers. -/

namespace Sys2Proof

/-- How DVI rounds a quotient that is not exact: the parameter `DVI_ROUND` of rule R107. -/
inductive Rounding where
  | towardZero
  | floor
deriving DecidableEq, Repr

/-- The parameter `SPECIAL_COST` of rule R218: the cycle counts doc00 does not give. Interrupt entry has three, since doc00
does not say what an entry costs that is skipped because IF is 0 or because the handler word is 0xFFFF. -/
structure SpecialCost where
  int : Nat
  cli : Nat
  sti : Nat
  lcr : Nat
  scr : Nat
  /-- an interrupt that meets IF = 0 -/
  masked : Nat
  /-- an interrupt that meets IF = 1 and the handler word 0xFFFF -/
  noHandler : Nat
  /-- an interrupt that reaches the handler -/
  entry : Nat
deriving DecidableEq, Repr

/-- The parameters of one machine. -/
structure Config where
  /-- `IVEC`, the address of the word that holds the handler address (rules R5, R196). -/
  ivec : Word
  /-- `DVI_ROUND` (rule R107). -/
  dviRound : Rounding
  /-- `SPECIAL_COST` (rule R218). -/
  specialCost : SpecialCost
deriving DecidableEq, Repr

/-- The values the spec suggests: `IVEC = 0xFFFE` (R5), rounding toward zero (R107). The spec suggests no cost: the zeros are
the model's (log 10, DESIGN CHOICE) and no statement rests on them. -/
def Config.default : Config where
  ivec := 0xfffe#16
  dviRound := .towardZero
  specialCost := { int := 0, cli := 0, sti := 0, lcr := 0, scr := 0, masked := 0, noHandler := 0, entry := 0 }

/-- One hardware interrupt: its number and its argument, each a full word (rules R7, R194). -/
structure Irq where
  number : Word
  argument : Word
deriving DecidableEq, Repr

/-- What the environment numbered `source` delivers at its boundary number `k`, an event or nothing: a free value, since rule
R7 leaves the stream of hardware interrupts open and allows it to be infinite (log 36). -/
opaque Config.freeIrq (source k : Nat) : Option Irq

/-- What a RAM word holds that nothing has written and no image has set (rules R25, R210, decision D5; log 4). -/
def Config.blankWord : Word := 0x0000#16

end Sys2Proof
end

