-- ==== Sys2Proof/Machine/Flags.lean ====
section
/-! DEFINITION. What each instruction computes from its two words: the result, the value of EX (the machine has no other
flags; rules R16, R17), and the tests of the conditionals. Operands are turned into integers, the arithmetic is exact, and the
answer is narrowed at the end (00_scope.md section 5.1). -/

namespace Sys2Proof.Machine

/-! ### Arithmetic (41_set_arith.md) -/

/-- R102: `wrap16(va + vb)`. -/
def addResult (va vb : Word) : Word := BitVec.ofNat 16 (va.toNat + vb.toNat)
/-- R102: 1 on the unsigned carry out of bit 15. -/
def addEx (va vb : Word) : Word := if va.toNat + vb.toNat > 0xffff then 0x0001#16 else 0x0000#16

/-- R103: `wrap16(va - vb)`. -/
def subResult (va vb : Word) : Word := BitVec.ofInt 16 ((va.toNat : Int) - (vb.toNat : Int))
/-- R103: 0xffff on the unsigned borrow. -/
def subEx (va vb : Word) : Word := if (va.toNat : Int) - (vb.toNat : Int) < 0 then 0xffff#16 else 0x0000#16

/-- R104: the low word of `u(va) * u(vb)`. -/
def mulResult (va vb : Word) : Word := BitVec.ofNat 16 (va.toNat * vb.toNat)
/-- R104: the high word of the unsigned product. -/
def mulEx (va vb : Word) : Word := BitVec.ofNat 16 ((va.toNat * vb.toNat) >>> 16)

/-- R105: the low word of `s(va) * s(vb)`. -/
def mliResult (va vb : Word) : Word := BitVec.ofInt 16 (va.toInt * vb.toInt)
/-- R105: the high word of the signed product, by the floor shift. -/
def mliEx (va vb : Word) : Word := BitVec.ofInt 16 ((va.toInt * vb.toInt) >>> (16 : Nat))

/-- R106: the unsigned quotient, 0 when the divisor is 0. -/
def divResult (va vb : Word) : Word :=
  if vb = 0#16 then 0#16 else BitVec.ofNat 16 (va.toNat / vb.toNat)
/-- R106: the first 16 fractional bits of the unsigned quotient, 0 when the divisor is 0. -/
def divEx (va vb : Word) : Word :=
  if vb = 0#16 then 0#16 else BitVec.ofNat 16 ((va.toNat <<< 16) / vb.toNat)

/-- A signed quotient rounded as the parameter `DVI_ROUND` says (R107): `truncdiv` or `floordiv`. -/
def roundedDiv (r : Rounding) (x y : Int) : Int :=
  match r with
  | .towardZero => x.tdiv y
  | .floor => x.fdiv y

/-- R107: the signed quotient, wrapped; 0 when the divisor is 0. -/
def dviResult (r : Rounding) (va vb : Word) : Word :=
  if vb = 0#16 then 0#16 else BitVec.ofInt 16 (roundedDiv r va.toInt vb.toInt)
/-- R107: the low word of the signed 16.16 quotient; 0 when the divisor is 0. -/
def dviEx (r : Rounding) (va vb : Word) : Word :=
  if vb = 0#16 then 0#16 else BitVec.ofInt 16 (roundedDiv r (va.toInt * 0x10000) vb.toInt)

/-- R108: the unsigned remainder, 0 when the modulus is 0. -/
def modResult (va vb : Word) : Word :=
  if vb = 0#16 then 0#16 else BitVec.ofNat 16 (va.toNat % vb.toNat)

/-! ### Logic and shifts (42_logic_shift.md) -/

/-- R120. -/
def andResult (va vb : Word) : Word := va &&& vb
/-- R121. -/
def borResult (va vb : Word) : Word := va ||| vb
/-- R122. -/
def xorResult (va vb : Word) : Word := va ^^^ vb

/-- R123: `u(va) >> u(vb)`; the count is the whole word (R126). -/
def shrResult (va vb : Word) : Word := BitVec.ofNat 16 (va.toNat >>> vb.toNat)
/-- R123: `((u(va) << 16) >> u(vb)) & 0xffff`. -/
def shrEx (va vb : Word) : Word := BitVec.ofNat 16 ((va.toNat <<< 16) >>> vb.toNat)

/-- R124: `wrap16(s(va) >> u(vb))`, the sign-filling shift. -/
def asrResult (va vb : Word) : Word := BitVec.ofInt 16 (va.toInt >>> vb.toNat)
/-- R124: the same formula as SHR's EX. -/
def asrEx (va vb : Word) : Word := BitVec.ofNat 16 ((va.toNat <<< 16) >>> vb.toNat)

/-- R125: `(u(va) << u(vb)) & 0xffff`. -/
def shlResult (va vb : Word) : Word := BitVec.ofNat 16 (va.toNat <<< vb.toNat)
/-- R125: `((u(va) << u(vb)) >> 16) & 0xffff`. -/
def shlEx (va vb : Word) : Word := BitVec.ofNat 16 ((va.toNat <<< vb.toNat) >>> 16)

/-! ### Tests (43_conditional.md) -/

/-- R141: a bit set in both. -/
def testIfb (va vb : Word) : Bool := (va &&& vb) ≠ 0#16
/-- R142. -/
def testIfe (va vb : Word) : Bool := va = vb
/-- R143. -/
def testIfn (va vb : Word) : Bool := va ≠ vb
/-- R144: signed. -/
def testIfg (va vb : Word) : Bool := va.toInt > vb.toInt
/-- R145: unsigned. -/
def testIfa (va vb : Word) : Bool := va.toNat > vb.toNat
/-- R146: signed. -/
def testIfl (va vb : Word) : Bool := va.toInt < vb.toInt
/-- R147: unsigned. -/
def testIfu (va vb : Word) : Bool := va.toNat < vb.toNat

end Sys2Proof.Machine
end

