-- ==== Sys2Proof/Syntax.lean ====
section
/-! DEFINITION. The instructions as data: what the FIRST word of an instruction says. "Instructions are 1-3 words long and are
fully defined by the first word" (rule R50): the next words are fetched while the operands are evaluated (rules R83, R84). -/

namespace Sys2Proof

/-- The eight general registers, in doc00's order (rule R10). -/
inductive Reg where
  | a | b | c | x | y | z | i | j
deriving DecidableEq, Repr

/-- The a operand: the destination position, a 5-bit value code (rules R70 to R81, R84). `next word` stands for one word of
the instruction, read when the operand is evaluated. -/
inductive Dst where
  /-- 0x00 to 0x07: register -/
  | reg (r : Reg)
  /-- 0x08 to 0x0f: [register] -/
  | ind (r : Reg)
  /-- 0x10 to 0x17: [register + next word] -/
  | idx (r : Reg)
  /-- 0x18: PUSH, [--SP] -/
  | push
  /-- 0x19: PEEK, [SP] -/
  | peek
  /-- 0x1a: PICK n, [SP + next word] -/
  | pick
  /-- 0x1b: SP -/
  | sp
  /-- 0x1c: PC -/
  | pc
  /-- 0x1d: EX -/
  | ex
  /-- 0x1e: [next word] -/
  | mem
  /-- 0x1f: next word, a literal -/
  | lit
deriving DecidableEq, Repr

/-- The b operand: the source position, a 6-bit value code (rules R70 to R83). -/
inductive Src where
  /-- 0x00 to 0x07: register -/
  | reg (r : Reg)
  /-- 0x08 to 0x0f: [register] -/
  | ind (r : Reg)
  /-- 0x10 to 0x17: [register + next word] -/
  | idx (r : Reg)
  /-- 0x18: POP, [SP++] -/
  | pop
  /-- 0x19: PEEK, [SP] -/
  | peek
  /-- 0x1a: PICK n, [SP + next word] -/
  | pick
  /-- 0x1b: SP -/
  | sp
  /-- 0x1c: PC -/
  | pc
  /-- 0x1d: EX -/
  | ex
  /-- 0x1e: [next word] -/
  | mem
  /-- 0x1f: next word, a literal -/
  | lit
  /-- 0x20 to 0x3f: the short literal of value `v`, -1 to 30 (R82); WellFormed checks the range -/
  | short (v : Word)
deriving DecidableEq, Repr

/-- The 27 instructions, one constructor per row of spec/opcode_table.json, operands in assembly order (a, then b). -/
inductive Instr where
  | set (a : Dst) (b : Src)
  | add (a : Dst) (b : Src)
  | sub (a : Dst) (b : Src)
  | mul (a : Dst) (b : Src)
  | mli (a : Dst) (b : Src)
  | div (a : Dst) (b : Src)
  | dvi (a : Dst) (b : Src)
  | mod (a : Dst) (b : Src)
  | and (a : Dst) (b : Src)
  | bor (a : Dst) (b : Src)
  | xor (a : Dst) (b : Src)
  | shr (a : Dst) (b : Src)
  | asr (a : Dst) (b : Src)
  | shl (a : Dst) (b : Src)
  | ifb (a : Dst) (b : Src)
  | ife (a : Dst) (b : Src)
  | ifn (a : Dst) (b : Src)
  | ifg (a : Dst) (b : Src)
  | ifa (a : Dst) (b : Src)
  | ifl (a : Dst) (b : Src)
  | ifu (a : Dst) (b : Src)
  | jsr (a : Dst)
  | int (a : Dst)
  | cli
  | sti
  | lcr (a : Dst)
  | scr (a : Dst)
deriving DecidableEq, Repr

/-- Why a first word is no instruction: the four classes of rule R58. -/
inductive Reserved where
  /-- a basic opcode of no row: 0x0f, 0x18 to 0x1f -/
  | unassignedBasic
  /-- special opcode 0x00, "reserved for future expansion" -/
  | specialZero
  /-- special opcodes 0x07 to 0x7f, "reserved" -/
  | specialReserved
  /-- CLI or STI with a nonzero a field (rule R59) -/
  | operandOnCliSti
deriving DecidableEq, Repr

end Sys2Proof
end

