-- ==== Sys2Proof/WellFormed.lean ====
section
/-! DEFINITION. Which instructions have an encoding. Every field of `Instr` is a closed type but one: the value of a short
literal, which must be one of the thirty-two of rule R82. -/

namespace Sys2Proof

/-- The values a short literal can have: 0xffff and 0 to 30 (rule R82). -/
def shortFits (v : Word) : Bool := v = 0xffff#16 || v.toNat ≤ 30

/-- A source operand has a value code. -/
def Src.wf : Src → Bool
  | .short v => shortFits v
  | .reg _ | .ind _ | .idx _ | .pop | .peek | .pick | .sp | .pc | .ex | .mem | .lit => true

/-- An instruction has a first word. -/
def Instr.wf : Instr → Bool
  | .set _ b | .add _ b | .sub _ b | .mul _ b | .mli _ b | .div _ b | .dvi _ b | .mod _ b
  | .and _ b | .bor _ b | .xor _ b | .shr _ b | .asr _ b | .shl _ b
  | .ifb _ b | .ife _ b | .ifn _ b | .ifg _ b | .ifa _ b | .ifl _ b | .ifu _ b => b.wf
  | .jsr _ | .int _ | .cli | .sti | .lcr _ | .scr _ => true

end Sys2Proof
end

