-- ==== Sys2Proof/Decode.lean ====
section
/-! DEFINITION. From a first word to an instruction (rules R51 to R53, R56 to R59), the length of an instruction (R55), and
back: the encoder. -/

namespace Sys2Proof

/-! ### The fields of a first word (rules R52, R53) -/

/-- `w[4:0]`, the basic opcode. -/
def fieldO (w : Word) : BitVec 5 := w.extractLsb' 0 5
/-- `w[9:5]`, operand a of a basic instruction. -/
def fieldA (w : Word) : BitVec 5 := w.extractLsb' 5 5
/-- `w[15:10]`, operand b of a basic instruction. -/
def fieldB (w : Word) : BitVec 6 := w.extractLsb' 10 6
/-- `w[10:4]`, the special opcode. -/
def fieldS (w : Word) : BitVec 7 := w.extractLsb' 4 7
/-- `w[15:11]`, operand a of a special instruction. -/
def fieldSpecialA (w : Word) : BitVec 5 := w.extractLsb' 11 5
/-- `w[3:0] = 0` marks the special format (rule R51). -/
def isSpecial (w : Word) : Bool := w.extractLsb' 0 4 = 0#4

/-! ### Value codes (rules R71 to R82) -/

/-- Register number `c[2:0]` (rule R10). -/
def decodeReg (c : BitVec 3) : Reg :=
  match c.toNat with
  | 0 => .a | 1 => .b | 2 => .c | 3 => .x | 4 => .y | 5 => .z | 6 => .i | _ => .j

/-- The a operand of value code `c` (rule R84's table). -/
def decodeDst (c : BitVec 5) : Dst :=
  let r := decodeReg (c.extractLsb' 0 3)
  match c.toNat / 8 with
  | 0 => .reg r
  | 1 => .ind r
  | 2 => .idx r
  | _ =>
    match c.toNat with
    | 0x18 => .push | 0x19 => .peek | 0x1a => .pick | 0x1b => .sp
    | 0x1c => .pc | 0x1d => .ex | 0x1e => .mem | _ => .lit

/-- The b operand of value code `c` (rule R83's table); a short literal is `wrap16(c - 0x21)` (R82). -/
def decodeSrc (c : BitVec 6) : Src :=
  let r := decodeReg (c.extractLsb' 0 3)
  match c.toNat / 8 with
  | 0 => .reg r
  | 1 => .ind r
  | 2 => .idx r
  | 3 =>
    match c.toNat with
    | 0x18 => .pop | 0x19 => .peek | 0x1a => .pick | 0x1b => .sp
    | 0x1c => .pc | 0x1d => .ex | 0x1e => .mem | _ => .lit
  | _ => .short (c.setWidth 16 - 0x21#16)

/-! ### Opcodes (rules R56, R57) -/

/-- The basic opcode table. -/
def decodeBasic (o : BitVec 5) (a : Dst) (b : Src) : Except Reserved Instr :=
  match o.toNat with
  | 0x01 => .ok (.set a b)
  | 0x02 => .ok (.add a b)
  | 0x03 => .ok (.sub a b)
  | 0x04 => .ok (.mul a b)
  | 0x05 => .ok (.mli a b)
  | 0x06 => .ok (.div a b)
  | 0x07 => .ok (.dvi a b)
  | 0x08 => .ok (.mod a b)
  | 0x09 => .ok (.and a b)
  | 0x0a => .ok (.bor a b)
  | 0x0b => .ok (.xor a b)
  | 0x0c => .ok (.shr a b)
  | 0x0d => .ok (.asr a b)
  | 0x0e => .ok (.shl a b)
  | 0x11 => .ok (.ifb a b)
  | 0x12 => .ok (.ife a b)
  | 0x13 => .ok (.ifn a b)
  | 0x14 => .ok (.ifg a b)
  | 0x15 => .ok (.ifa a b)
  | 0x16 => .ok (.ifl a b)
  | 0x17 => .ok (.ifu a b)
  | _ => .error .unassignedBasic

/-- The special opcode table; CLI and STI have no operand, so their a field must be 0 (rule R59). -/
def decodeSpecial (s : BitVec 7) (a : BitVec 5) : Except Reserved Instr :=
  match s.toNat with
  | 0x00 => .error .specialZero
  | 0x01 => .ok (.jsr (decodeDst a))
  | 0x02 => .ok (.int (decodeDst a))
  | 0x03 => if a = 0#5 then .ok .cli else .error .operandOnCliSti
  | 0x04 => if a = 0#5 then .ok .sti else .error .operandOnCliSti
  | 0x05 => .ok (.lcr (decodeDst a))
  | 0x06 => .ok (.scr (decodeDst a))
  | _ => .error .specialReserved

/-- The instruction a first word stands for, or the class of rule R58 it belongs to. -/
def decode (w : Word) : Except Reserved Instr :=
  if isSpecial w then decodeSpecial (fieldS w) (fieldSpecialA w)
  else decodeBasic (fieldO w) (decodeDst (fieldA w)) (decodeSrc (fieldB w))

/-! ### Length (rule R55) -/

/-- `nw(c)` for a value code: the codes that take a next word. -/
def codeNextWords (c : Nat) : Nat :=
  if (0x10 ≤ c ∧ c ≤ 0x17) ∨ c = 0x1a ∨ c = 0x1e ∨ c = 0x1f then 1 else 0

/-- `Len(w)`: the length in words of the instruction with first word `w`, defined for every word, assigned or not. -/
def len (w : Word) : Nat :=
  if isSpecial w then 1 + codeNextWords (fieldSpecialA w).toNat
  else 1 + codeNextWords (fieldA w).toNat + codeNextWords (fieldB w).toNat

/-! ### The encoder -/

/-- The number of a register (rule R10). -/
def Reg.code : Reg → BitVec 3
  | .a => 0 | .b => 1 | .c => 2 | .x => 3 | .y => 4 | .z => 5 | .i => 6 | .j => 7

/-- The value code of an a operand (rule R84's table). -/
def Dst.code : Dst → BitVec 5
  | .reg r => 0#2 ++ r.code
  | .ind r => 1#2 ++ r.code
  | .idx r => 2#2 ++ r.code
  | .push => 0x18 | .peek => 0x19 | .pick => 0x1a | .sp => 0x1b
  | .pc => 0x1c | .ex => 0x1d | .mem => 0x1e | .lit => 0x1f

/-- The value code of a b operand (rule R83's table); the short literal `v` has code `v + 0x21`, -1 being 0x20 (R82). -/
def Src.code : Src → BitVec 6
  | .reg r => 0#3 ++ r.code
  | .ind r => 1#3 ++ r.code
  | .idx r => 2#3 ++ r.code
  | .pop => 0x18 | .peek => 0x19 | .pick => 0x1a | .sp => 0x1b
  | .pc => 0x1c | .ex => 0x1d | .mem => 0x1e | .lit => 0x1f
  | .short v => (v + 0x21#16).setWidth 6

/-- The basic format `bbbbbbaaaaaooooo` (rule R52). -/
def basicWord (o : BitVec 5) (a : Dst) (b : Src) : Word := b.code ++ a.code ++ o

/-- The special format `aaaaaooooooo0000` (rule R53). -/
def specialWord (s : BitVec 7) (a : BitVec 5) : Word := a ++ s ++ 0#4

/-- The first word of an instruction (rules R56, R57, R59). -/
def encode : Instr → Word
  | .set a b => basicWord 0x01 a b
  | .add a b => basicWord 0x02 a b
  | .sub a b => basicWord 0x03 a b
  | .mul a b => basicWord 0x04 a b
  | .mli a b => basicWord 0x05 a b
  | .div a b => basicWord 0x06 a b
  | .dvi a b => basicWord 0x07 a b
  | .mod a b => basicWord 0x08 a b
  | .and a b => basicWord 0x09 a b
  | .bor a b => basicWord 0x0a a b
  | .xor a b => basicWord 0x0b a b
  | .shr a b => basicWord 0x0c a b
  | .asr a b => basicWord 0x0d a b
  | .shl a b => basicWord 0x0e a b
  | .ifb a b => basicWord 0x11 a b
  | .ife a b => basicWord 0x12 a b
  | .ifn a b => basicWord 0x13 a b
  | .ifg a b => basicWord 0x14 a b
  | .ifa a b => basicWord 0x15 a b
  | .ifl a b => basicWord 0x16 a b
  | .ifu a b => basicWord 0x17 a b
  | .jsr a => specialWord 0x01 a.code
  | .int a => specialWord 0x02 a.code
  | .cli => specialWord 0x03 0
  | .sti => specialWord 0x04 0
  | .lcr a => specialWord 0x05 a.code
  | .scr a => specialWord 0x06 a.code

/-! ### Next words of an operand, and the whole instruction in words -/

/-- How many next words an a operand takes (rules R71 to R81): 0 or 1. -/
def Dst.nextWords : Dst → Nat
  | .idx _ | .pick | .mem | .lit => 1
  | .reg _ | .ind _ | .push | .peek | .sp | .pc | .ex => 0

/-- How many next words a b operand takes (rules R71 to R82): 0 or 1. -/
def Src.nextWords : Src → Nat
  | .idx _ | .pick | .mem | .lit => 1
  | .reg _ | .ind _ | .pop | .peek | .sp | .pc | .ex | .short _ => 0

/-- How many next words an instruction takes. -/
def Instr.nextWords : Instr → Nat
  | .set a b | .add a b | .sub a b | .mul a b | .mli a b | .div a b | .dvi a b | .mod a b
  | .and a b | .bor a b | .xor a b | .shr a b | .asr a b | .shl a b
  | .ifb a b | .ife a b | .ifn a b | .ifg a b | .ifa a b | .ifl a b | .ifu a b => a.nextWords + b.nextWords
  | .jsr a | .int a | .lcr a | .scr a => a.nextWords
  | .cli | .sti => 0

/-! ### The host's question about one opcode-table word -/

/-- The instruction the decoder reads from the bits `w` of a table row of `nbits` bits: the row's one word is the first word,
whose bit 0 is the least significant. -/
def decodeTableWord (nbits w : Nat) : Option Instr :=
  match decode (BitVec.ofNat 16 (w % 2 ^ nbits)) with
  | .ok i => some i
  | .error _ => none

end Sys2Proof
end

