-- ==== Sys2Proof/Machine/State.lean ====
section
/-! DEFINITION. The machine's state as plain data, why a step can stop, and the state after reset. -/

namespace Sys2Proof.Machine

/-- The eight general registers (rule R10). -/
structure Gpr where
  a : Word
  b : Word
  c : Word
  x : Word
  y : Word
  z : Word
  i : Word
  j : Word
deriving DecidableEq, Repr

/-- RAM (rule R22), as a list of (address, word) pairs: the machine's addressable unit is the 16-bit word and it has no bytes
(R30; log 6). An address the list does not hold reads as `Config.blankWord` (R25). `Memory.wf` is the canonical form. -/
abbrev Memory := List (Nat × Word)

/-- What a schedule delivers after its listed slots. -/
inductive IrqTail where
  /-- nothing any more: the sequence of events is finite -/
  | silent
  /-- what the environment `source` sends from its boundary number `next` on, without end (`Config.freeIrq`; log 36) -/
  | free (source next : Nat)
deriving DecidableEq, Repr

/-- The parameter `EXT_IRQ` (rules R7, R183) as seen from the coming instruction boundary: one slot for each boundary, an
event or nothing. The first slots are listed, the next boundary's first; `tail` says all the later ones (log 8). -/
structure Schedule where
  slots : List (Option Irq)
  tail : IrqTail
deriving DecidableEq, Repr

/-- No hardware interrupt ever: the value rule R7 names for a model without asynchronous behaviour. -/
def Schedule.empty : Schedule := { slots := [], tail := .silent }

/-- Everything the spec gives the machine (10_state.md), the parameters it takes as arguments (00_scope.md section 4), and one
counter of the model's own. -/
structure State where
  /-- A, B, C, X, Y, Z, I, J (R10) -/
  regs : Gpr
  /-- the program counter (R12) -/
  pc : Word
  /-- the stack pointer (R15) -/
  sp : Word
  /-- the extra/excess register (R16) -/
  ex : Word
  /-- the control register; bit 0 is IF (R18, R19) -/
  cr : Word
  /-- RAM (R22) -/
  mem : Memory
  /-- the parameter `EXT_IRQ` (R7, R183): what the environment delivers at the coming instruction boundaries -/
  extIrq : Schedule
  /-- the parameters `IVEC`, `DVI_ROUND` and `SPECIAL_COST` -/
  config : Config
  /-- the model's own count of the cycles of rules R216 to R218; no instruction can read it (log 11) -/
  cycles : Nat
deriving DecidableEq, Repr

/-- Why a step stops with a fault. -/
inductive Fault where
  /-- `raise Illegal(w)` (rules R58, R193): raised by `step` right after it fetched a first word `w` that is no instruction.
  `why` is its class and `at_` the state at the fault, in which only pc has moved past `w`. Safe: the spec gives such a word
  no behaviour and the model claims none. -/
  | illegal (why : Reserved) (w : Word) (at_ : State)
deriving DecidableEq, Repr

/-- Why the model has no meaning for an instruction. -/
inductive Refusal where
  /-- an instruction that has no meaning yet, by its mnemonic; raised by `exec` alone. Safe. Every instruction has its
  meaning, so nothing raises it. -/
  | notModelled (mnemonic : String)
deriving DecidableEq, Repr

/-- The machine right after reset with no image loaded (rules R25, R210; decisions D1 to D5): every register 0, so IF = 0;
RAM blank; the parameters at the values the spec suggests; no hardware interrupt scheduled. -/
def State.reset : State where
  regs := { a := 0, b := 0, c := 0, x := 0, y := 0, z := 0, i := 0, j := 0 }
  pc := 0
  sp := 0
  ex := 0
  cr := 0
  mem := []
  extIrq := Schedule.empty
  config := Config.default
  cycles := 0

end Sys2Proof.Machine
end

