-- ==== Sys2Proof/Machine/Ops.lean ====
section
/-! DEFINITION. The named operations over memory, registers and the stack (00_scope.md section 5.3), and interrupt entry, the
machine's one exception-like action (rule R184). -/

namespace Sys2Proof.Machine

/-! ### Memory -/

/-- The word the list gives a key. -/
def Memory.lookup : Memory → Nat → Word
  | [], _ => Config.blankWord
  | (k, v) :: m, n => if k = n then v else Memory.lookup m n

/-- `MemRead(addr, 1)`: total, without side effect (rules R33, R35). -/
def Memory.read (m : Memory) (addr : Word) : Word := Memory.lookup m addr.toNat

/-- Put the pair before the first larger key. -/
def Memory.insertCell : Memory → Nat → Word → Memory
  | [], n, v => [(n, v)]
  | (k, w) :: m, n, v => if n < k then (n, v) :: (k, w) :: m else (k, w) :: Memory.insertCell m n v

/-- `MemWrite(addr, 1, v)`: that word only (rule R35). Storing the blank word leaves the address unlisted. -/
def Memory.write (m : Memory) (addr v : Word) : Memory :=
  let rest := m.filter (fun c => c.1 ≠ addr.toNat)
  if v = Config.blankWord then rest else Memory.insertCell rest addr.toNat v

/-- The canonical form: addresses strictly rising and inside the 0x10000 words, no entry equal to the blank word. -/
abbrev Memory.wf (m : Memory) : Prop :=
  (m.map Prod.fst).Pairwise (· < ·) ∧ ∀ c ∈ m, c.1 < 0x10000 ∧ c.2 ≠ Config.blankWord

/-- Store the words of an image from address `addr` upward (rules R6, R32). -/
def Memory.load : Memory → Word → List Word → Memory
  | m, _, [] => m
  | m, addr, w :: ws => Memory.load (Memory.write m addr w) (addr + 1) ws

/-! ### Registers -/

/-- `x[i]` (rule R10). -/
def Gpr.get (g : Gpr) : Reg → Word
  | .a => g.a | .b => g.b | .c => g.c | .x => g.x | .y => g.y | .z => g.z | .i => g.i | .j => g.j

/-- `x[i] <- v`. -/
def Gpr.set (g : Gpr) (r : Reg) (v : Word) : Gpr :=
  match r with
  | .a => { g with a := v }
  | .b => { g with b := v }
  | .c => { g with c := v }
  | .x => { g with x := v }
  | .y => { g with y := v }
  | .z => { g with z := v }
  | .i => { g with i := v }
  | .j => { g with j := v }

/-- Read a general register. -/
def State.reg (s : State) (r : Reg) : Word := s.regs.get r
/-- Write a general register. -/
def State.setReg (s : State) (r : Reg) (v : Word) : State := { s with regs := s.regs.set r v }
/-- `pc <- v`. -/
def State.setPc (s : State) (v : Word) : State := { s with pc := v }
/-- `sp <- v`. -/
def State.setSp (s : State) (v : Word) : State := { s with sp := v }
/-- `ex <- v`. -/
def State.setEx (s : State) (v : Word) : State := { s with ex := v }
/-- `cr <- v`. -/
def State.setCr (s : State) (v : Word) : State := { s with cr := v }
/-- The RAM word at an address. -/
def State.read (s : State) (addr : Word) : Word := Memory.read s.mem addr
/-- Store a RAM word. -/
def State.store (s : State) (addr v : Word) : State := { s with mem := Memory.write s.mem addr v }
/-- Count `n` cycles (rules R216 to R218). -/
def State.charge (s : State) (n : Nat) : State := { s with cycles := s.cycles + n }

/-- IF, the interrupt flag: bit 0 of CR (rule R18). -/
def State.ifFlag (s : State) : Bool := s.cr.getLsbD 0

/-! ### Fetch and stack (00_scope.md section 5.3) -/

/-- `Fetch()`: `[PC++]`. -/
def fetch (s : State) : Word × State := (s.read s.pc, s.setPc (s.pc + 1))

/-- `Push(v)`: `[--SP]` as a destination. -/
def State.push (s : State) (v : Word) : State := (s.setSp (s.sp - 1)).store (s.sp - 1) v

/-- `Pop()`: `[SP++]`. -/
def pop (s : State) : Word × State := (s.read s.sp, s.setSp (s.sp + 1))

/-! ### Interrupt entry -/

/-- The handler word that means "no handler" (rule R187). -/
def noHandler : Word := 0xffff#16

/-- `Interrupt(n, arg)`, the entry sequence of rule R184, for both kinds of interrupt: IF is tested and cleared, then the
handler word is read and compared, then PC, the argument and the number are pushed and PC is set. The cycles are the
parameters of rule R218. There is no return instruction: a handler returns by ordinary instructions (R189), which
`handlerExit` and `handlerExitKeepingEx` in Safety.lean spell out. -/
def interrupt (n arg : Word) (s : State) : State :=
  if s.ifFlag = false then s.charge s.config.specialCost.masked
  else
    let s1 := s.setCr (s.cr &&& 0xfffe#16)
    let h := s1.read s1.config.ivec
    if h = noHandler then s1.charge s1.config.specialCost.noHandler
    else ((((s1.push s1.pc).push arg).push n).setPc h).charge s1.config.specialCost.entry

/-! ### The schedule of hardware interrupts, and the instruction boundary -/

/-- What a tail delivers at its `k`-th boundary. -/
def IrqTail.event : IrqTail → Nat → Option Irq
  | .silent, _ => none
  | .free source next, k => Config.freeIrq source (next + k)

/-- A tail one boundary later. -/
def IrqTail.rest : IrqTail → IrqTail
  | .silent => .silent
  | .free source next => .free source (next + 1)

/-- The `k`-th of listed slots followed by a tail. -/
def eventFrom (tail : IrqTail) : List (Option Irq) → Nat → Option Irq
  | [], k => tail.event k
  | slot :: _, 0 => slot
  | _ :: slots, k + 1 => eventFrom tail slots k

/-- What the environment delivers at the `k`-th coming boundary, the next one being number 0. -/
def Schedule.event (e : Schedule) (k : Nat) : Option Irq := eventFrom e.tail e.slots k

/-- The schedule one boundary later. -/
def Schedule.rest (e : Schedule) : Schedule :=
  match e.slots with
  | [] => { e with tail := e.tail.rest }
  | _ :: slots => { e with slots := slots }

/-- The schedule with an empty slot before all others. -/
def Schedule.delay (e : Schedule) : Schedule := { e with slots := none :: e.slots }

/-- The slot of the schedule that belongs to this instruction boundary is used up. -/
def State.dropSlot (s : State) : State := { s with extIrq := s.extIrq.rest }

/-- The instruction boundary of rules R61 and R183: the environment delivers at most one hardware interrupt, before the
first word of the next instruction is fetched. -/
def boundary (s : State) : State :=
  match s.extIrq.event 0 with
  | some q => interrupt q.number q.argument s.dropSlot
  | none => s.dropSlot

/-! ### Boot -/

/-- The machine after reset with the image `IMAGE` in RAM from address 0 (rules R6, R25, R210). An image has at most 0x10000
words; what goes beyond them has no address and is left out (DESIGN CHOICE, log 5). -/
def State.boot (image : List Word) : State :=
  { State.reset with mem := Memory.load [] 0 (image.take 0x10000) }

/-- A launch with chosen parameters: the spec's alternative to the suggested values (rules R5, R7, R25, R211). -/
def State.launch (config : Config) (extIrq : Schedule) (image : List Word) : State :=
  { State.boot image with config := config, extIrq := extIrq }

end Sys2Proof.Machine
end

