-- ==== Sys2Proof/Machine/Operands.lean ====
section
/-! DEFINITION. The two operand evaluators every instruction uses, and locations (40_operands.md). -/

namespace Sys2Proof.Machine

/-- A location, what an a operand evaluates to (rule R84). -/
inductive Loc where
  | reg (r : Reg)
  | mem (addr : Word)
  | sp
  | pc
  | ex
  | lit (v : Word)
deriving DecidableEq, Repr

/-- `EvalB(c)` (rule R83): the source word, and the state after the evaluation, in which only pc and sp may have moved. -/
def evalB (b : Src) (s : State) : Word × State :=
  match b with
  | .reg r => (s.reg r, s)
  | .ind r => (s.read (s.reg r), s)
  | .idx r => let f := fetch s; (f.2.read (f.2.reg r + f.1), f.2)
  | .pop => pop s
  | .peek => (s.read s.sp, s)
  | .pick => let f := fetch s; (f.2.read (f.2.sp + f.1), f.2)
  | .sp => (s.sp, s)
  | .pc => (s.pc, s)
  | .ex => (s.ex, s)
  | .mem => let f := fetch s; (f.2.read f.1, f.2)
  | .lit => fetch s
  | .short v => (v, s)

/-- `EvalA(c)` (rule R84): the location, and the state after the evaluation, in which only pc and sp may have moved. -/
def evalA (a : Dst) (s : State) : Loc × State :=
  match a with
  | .reg r => (.reg r, s)
  | .ind r => (.mem (s.reg r), s)
  | .idx r => let f := fetch s; (.mem (f.2.reg r + f.1), f.2)
  | .push => let s1 := s.setSp (s.sp - 1); (.mem s1.sp, s1)
  | .peek => (.mem s.sp, s)
  | .pick => let f := fetch s; (.mem (f.2.sp + f.1), f.2)
  | .sp => (.sp, s)
  | .pc => (.pc, s)
  | .ex => (.ex, s)
  | .mem => let f := fetch s; (.mem f.1, f.2)
  | .lit => let f := fetch s; (.lit f.1, f.2)

/-- `ReadLoc(loc)` (rule R85). -/
def readLoc (l : Loc) (s : State) : Word :=
  match l with
  | .reg r => s.reg r
  | .mem addr => s.read addr
  | .sp => s.sp
  | .pc => s.pc
  | .ex => s.ex
  | .lit v => v

/-- `WriteLoc(loc, v)` (rule R86); a write to a literal is discarded (R88). -/
def writeLoc (l : Loc) (v : Word) (s : State) : State :=
  match l with
  | .reg r => s.setReg r v
  | .mem addr => s.store addr v
  | .sp => s.setSp v
  | .pc => s.setPc v
  | .ex => s.setEx v
  | .lit _ => s

/-- The cycles to look up an a operand (rule R216): 1 for every form that reads a word, PICK included (C6). -/
def dstCost : Dst → Nat
  | .idx _ | .pick | .mem | .lit => 1
  | .reg _ | .ind _ | .push | .peek | .sp | .pc | .ex => 0

/-- The cycles to look up a b operand (rule R216). -/
def srcCost : Src → Nat
  | .idx _ | .pick | .mem | .lit => 1
  | .reg _ | .ind _ | .pop | .peek | .sp | .pc | .ex | .short _ => 0

end Sys2Proof.Machine
end

