-- ==== Sys2Proof/Machine/Template.lean ====
section
/-! DEFINITION. The shared shapes of the basic instructions: the common template of rule R100, with and without the EX side
effect, and the conditional of rule R140. `base` is the cycle count of rule R217, "plus the cost of a and b". -/

namespace Sys2Proof.Machine

/-- What a step answers. -/
abbrev Result := Host.Outcome State Fault Refusal

/-- R100 for an instruction that writes its a operand from `va` and `vb` and leaves EX alone. -/
def alu (base : Nat) (f : Word → Word → Word) (a : Dst) (b : Src) (s : State) : Result :=
  let vb := evalB b s
  let loc := evalA a vb.2
  let va := readLoc loc.1 loc.2
  .next ((writeLoc loc.1 (f va vb.1) loc.2).charge (base + dstCost a + srcCost b))

/-- R100 for an instruction that also writes EX: the result is written first, EX second (R109). -/
def aluEx (base : Nat) (f g : Word → Word → Word) (a : Dst) (b : Src) (s : State) : Result :=
  let vb := evalB b s
  let loc := evalA a vb.2
  let va := readLoc loc.1 loc.2
  .next (((writeLoc loc.1 (f va vb.1) loc.2).setEx (g va vb.1)).charge (base + dstCost a + srcCost b))

/-- The skip of a failing conditional: past the whole next instruction, by its first word alone (rules R140, R55, R148). -/
def skipNext (s : State) : State := s.setPc (s.pc + BitVec.ofNat 16 (len (s.read s.pc)))

/-- R140: both operands are evaluated in full; if the test fails, the next instruction is passed over in this step. -/
def conditional (test : Word → Word → Bool) (a : Dst) (b : Src) (s : State) : Result :=
  let vb := evalB b s
  let loc := evalA a vb.2
  let va := readLoc loc.1 loc.2
  if test va vb.1 then .next (loc.2.charge (2 + dstCost a + srcCost b))
  else .next ((skipNext loc.2).charge (3 + dstCost a + srcCost b))

end Sys2Proof.Machine
end

