-- ==== Sys2Proof/Machine/Arith.lean ====
section
/-! DEFINITION. SET and integer arithmetic (41_set_arith.md). -/

namespace Sys2Proof.Machine

/-- R101: sets a to b; a is not read. -/
def execSet (a : Dst) (b : Src) (s : State) : Result :=
  let vb := evalB b s
  let loc := evalA a vb.2
  .next ((writeLoc loc.1 vb.1 loc.2).charge (1 + dstCost a + srcCost b))

/-- R102. -/
def execAdd (a : Dst) (b : Src) (s : State) : Result := aluEx 2 addResult addEx a b s
/-- R103. -/
def execSub (a : Dst) (b : Src) (s : State) : Result := aluEx 2 subResult subEx a b s
/-- R104. -/
def execMul (a : Dst) (b : Src) (s : State) : Result := aluEx 2 mulResult mulEx a b s
/-- R105. -/
def execMli (a : Dst) (b : Src) (s : State) : Result := aluEx 2 mliResult mliEx a b s
/-- R106. -/
def execDiv (a : Dst) (b : Src) (s : State) : Result := aluEx 3 divResult divEx a b s
/-- R107, rounding as the machine's parameter says. -/
def execDvi (a : Dst) (b : Src) (s : State) : Result :=
  aluEx 3 (dviResult s.config.dviRound) (dviEx s.config.dviRound) a b s
/-- R108: EX is left alone. -/
def execMod (a : Dst) (b : Src) (s : State) : Result := alu 3 modResult a b s

end Sys2Proof.Machine
end

