-- ==== Sys2Proof/Machine/Cond.lean ====
section
/-! DEFINITION. The seven conditionals (43_conditional.md). -/

namespace Sys2Proof.Machine

/-- R141. -/
def execIfb (a : Dst) (b : Src) (s : State) : Result := conditional testIfb a b s
/-- R142. -/
def execIfe (a : Dst) (b : Src) (s : State) : Result := conditional testIfe a b s
/-- R143. -/
def execIfn (a : Dst) (b : Src) (s : State) : Result := conditional testIfn a b s
/-- R144. -/
def execIfg (a : Dst) (b : Src) (s : State) : Result := conditional testIfg a b s
/-- R145. -/
def execIfa (a : Dst) (b : Src) (s : State) : Result := conditional testIfa a b s
/-- R146. -/
def execIfl (a : Dst) (b : Src) (s : State) : Result := conditional testIfl a b s
/-- R147. -/
def execIfu (a : Dst) (b : Src) (s : State) : Result := conditional testIfu a b s

end Sys2Proof.Machine
end

