-- ==== Sys2Proof/Machine/Logic.lean ====
section
/-! DEFINITION. Bitwise logic and shifts (42_logic_shift.md). -/

namespace Sys2Proof.Machine

/-- R120. -/
def execAnd (a : Dst) (b : Src) (s : State) : Result := alu 1 andResult a b s
/-- R121. -/
def execBor (a : Dst) (b : Src) (s : State) : Result := alu 1 borResult a b s
/-- R122. -/
def execXor (a : Dst) (b : Src) (s : State) : Result := alu 1 xorResult a b s
/-- R123. -/
def execShr (a : Dst) (b : Src) (s : State) : Result := aluEx 2 shrResult shrEx a b s
/-- R124. -/
def execAsr (a : Dst) (b : Src) (s : State) : Result := aluEx 2 asrResult asrEx a b s
/-- R125. -/
def execShl (a : Dst) (b : Src) (s : State) : Result := aluEx 2 shlResult shlEx a b s

end Sys2Proof.Machine
end

