-- ==== Sys2Proof/Machine/Special.lean ====
section
/-! DEFINITION. The special instructions (44_special.md). The one operand is in the a position (rule R89). The costs doc00 does
not give are the parameters of rule R218, to which the operand's own cost (R216) is added (log 12). -/

namespace Sys2Proof.Machine

/-- R161: the target is read before the return address is pushed. -/
def execJsr (a : Dst) (s : State) : Result :=
  let loc := evalA a s
  let va := readLoc loc.1 loc.2
  .next (((loc.2.push loc.2.pc).setPc va).charge (2 + dstCost a))

/-- R162: the entry sequence with argument 0. -/
def execInt (a : Dst) (s : State) : Result :=
  let loc := evalA a s
  let n := readLoc loc.1 loc.2
  .next ((interrupt n 0#16 loc.2).charge (s.config.specialCost.int + dstCost a))

/-- R163: bit 0 of CR is cleared, bits 15:1 are kept. -/
def execCli (s : State) : Result := .next ((s.setCr (s.cr &&& 0xfffe#16)).charge s.config.specialCost.cli)

/-- R164: bit 0 of CR is set, bits 15:1 are kept. -/
def execSti (s : State) : Result := .next ((s.setCr (s.cr ||| 0x0001#16)).charge s.config.specialCost.sti)

/-- R165: all 16 bits of CR go to a, which is not read. -/
def execLcr (a : Dst) (s : State) : Result :=
  let loc := evalA a s
  .next ((writeLoc loc.1 loc.2.cr loc.2).charge (s.config.specialCost.lcr + dstCost a))

/-- R166: all 16 bits of a go to CR. -/
def execScr (a : Dst) (s : State) : Result :=
  let loc := evalA a s
  .next ((loc.2.setCr (readLoc loc.1 loc.2)).charge (s.config.specialCost.scr + dstCost a))

end Sys2Proof.Machine
end

