-- ==== Sys2Proof/Machine/Dispatch.lean ====
section
/-! DEFINITION. One arm per instruction: a direct call of its meaning. -/

namespace Sys2Proof.Machine

def exec (i : Instr) (s : State) : Host.Outcome State Fault Refusal :=
  match i with
  | .set a b => Sys2Proof.Machine.execSet a b s
  | .add a b => Sys2Proof.Machine.execAdd a b s
  | .sub a b => Sys2Proof.Machine.execSub a b s
  | .mul a b => Sys2Proof.Machine.execMul a b s
  | .mli a b => Sys2Proof.Machine.execMli a b s
  | .div a b => Sys2Proof.Machine.execDiv a b s
  | .dvi a b => Sys2Proof.Machine.execDvi a b s
  | .mod a b => Sys2Proof.Machine.execMod a b s
  | .and a b => Sys2Proof.Machine.execAnd a b s
  | .bor a b => Sys2Proof.Machine.execBor a b s
  | .xor a b => Sys2Proof.Machine.execXor a b s
  | .shr a b => Sys2Proof.Machine.execShr a b s
  | .asr a b => Sys2Proof.Machine.execAsr a b s
  | .shl a b => Sys2Proof.Machine.execShl a b s
  | .ifb a b => Sys2Proof.Machine.execIfb a b s
  | .ife a b => Sys2Proof.Machine.execIfe a b s
  | .ifn a b => Sys2Proof.Machine.execIfn a b s
  | .ifg a b => Sys2Proof.Machine.execIfg a b s
  | .ifa a b => Sys2Proof.Machine.execIfa a b s
  | .ifl a b => Sys2Proof.Machine.execIfl a b s
  | .ifu a b => Sys2Proof.Machine.execIfu a b s
  | .jsr a => Sys2Proof.Machine.execJsr a s
  | .int a => Sys2Proof.Machine.execInt a s
  | .cli => Sys2Proof.Machine.execCli s
  | .sti => Sys2Proof.Machine.execSti s
  | .lcr a => Sys2Proof.Machine.execLcr a s
  | .scr a => Sys2Proof.Machine.execScr a s

end Sys2Proof.Machine
end

