-- ==== Sys2Proof/Machine/Step.lean ====
section
/-! DEFINITION. One step of the machine (rule R61). -/

namespace Sys2Proof.Machine

/-- Rule R61: the instruction boundary, at which a hardware interrupt may be taken; the first word is fetched; a reserved word
faults at once (R58); otherwise the instruction runs, fetching its next words while its operands are evaluated. -/
def step (s : State) : Host.Outcome State Fault Refusal :=
  let f := fetch (boundary s)
  match decode f.1 with
  | .error why => .fault (.illegal why f.1 f.2)
  | .ok i => exec i f.2

/-- `s` with the instruction of bits `w` where the next step fetches: its words at pc, pc + 1 and pc + 2, the ones above
`nbits` zero. An interrupt scheduled for the coming boundary would send the fetch elsewhere, so that slot is made empty
(log 34); a program otherwise comes into RAM as the image of a launch (log 5). -/
def State.withFetchWord (s : State) (nbits w : Nat) : State :=
  let bits := w % 2 ^ nbits
  { s with
    mem := Memory.load s.mem s.pc
      [BitVec.ofNat 16 bits, BitVec.ofNat 16 (bits / 0x10000), BitVec.ofNat 16 (bits / 0x100000000)]
    extIrq := match s.extIrq.event 0 with
      | none => s.extIrq
      | some _ => s.extIrq.rest.delay }

end Sys2Proof.Machine
end

