-- ==== Sys2Proof/Machine/Asm.lean ====
section
/-! DEFINITION. The source form of doc00's examples (rules R62 to R64), from source lines to words. Lines are data: the
characters of a listing (blanks, comments, letter case) are left out (log 35). -/

namespace Sys2Proof.Machine

/-- A number in source form: written out, or the name of a label, which stands for its address. R62 shows a label only as a
literal operand; that it may also be the number inside `[n]`, `[n+REG]` and `PICK n` is the model's DESIGN CHOICE (log 38). -/
inductive AsmNum where
  | num (v : Word)
  | label (name : String)
deriving DecidableEq, Repr

/-- The operand spellings of rule R62's table; a label as any `n` of it is a DESIGN CHOICE (log 38). -/
inductive AsmOperand where
  /-- `A` to `J` -/
  | reg (r : Reg)
  /-- `[A]` to `[J]` -/
  | ind (r : Reg)
  /-- `[n+REG]` -/
  | idx (n : AsmNum) (r : Reg)
  /-- `PUSH`, in a only -/
  | push
  /-- `POP`, in b only -/
  | pop
  /-- `PEEK` or `[SP]` -/
  | peek
  /-- `PICK n` or `[SP + n]` -/
  | pick (n : AsmNum)
  /-- `SP` -/
  | sp
  /-- `PC` -/
  | pc
  /-- `EX` -/
  | ex
  /-- `[n]` -/
  | mem (n : AsmNum)
  /-- `n` -/
  | lit (n : AsmNum)
deriving DecidableEq, Repr

/-- A source line: a label, or an instruction with its mnemonic. -/
inductive AsmLine where
  /-- `:name` -/
  | label (name : String)
  /-- `MNEMONIC a, b` -/
  | basic (mnemonic : String) (a : AsmOperand) (b : AsmOperand)
  /-- `MNEMONIC a` -/
  | special (mnemonic : String) (a : AsmOperand)
  /-- the bare mnemonic -/
  | bare (mnemonic : String)
deriving DecidableEq, Repr

/-- The basic mnemonics (rule R56). -/
def basicMnemonics : List (String × (Dst → Src → Instr)) :=
  [("SET", .set), ("ADD", .add), ("SUB", .sub), ("MUL", .mul), ("MLI", .mli), ("DIV", .div), ("DVI", .dvi)] ++
  [("MOD", .mod), ("AND", .and), ("BOR", .bor), ("XOR", .xor), ("SHR", .shr), ("ASR", .asr), ("SHL", .shl)] ++
  [("IFB", .ifb), ("IFE", .ife), ("IFN", .ifn), ("IFG", .ifg), ("IFA", .ifa), ("IFL", .ifl), ("IFU", .ifu)]

/-- The mnemonics of the special instructions with an operand (rule R57). -/
def specialMnemonics : List (String × (Dst → Instr)) :=
  [("JSR", .jsr), ("INT", .int), ("LCR", .lcr), ("SCR", .scr)]

/-- The mnemonics of the instructions without an operand (rule R59). -/
def bareMnemonics : List (String × Instr) := [("CLI", .cli), ("STI", .sti)]

/-- An operand in the a position: its value code and the number that becomes its next word. `POP` has none, and a literal is
always the next-word form (rules R62, R63). -/
def AsmOperand.asDst : AsmOperand → Option (Dst × List AsmNum)
  | .reg r => some (.reg r, [])
  | .ind r => some (.ind r, [])
  | .idx n r => some (.idx r, [n])
  | .push => some (.push, [])
  | .pop => none
  | .peek => some (.peek, [])
  | .pick n => some (.pick, [n])
  | .sp => some (.sp, [])
  | .pc => some (.pc, [])
  | .ex => some (.ex, [])
  | .mem n => some (.mem, [n])
  | .lit n => some (.lit, [n])

/-- An operand in the b position. `PUSH` has none; a number that fits takes the short form, a label the next-word form, as
doc00's assembler does (rule R63). -/
def AsmOperand.asSrc : AsmOperand → Option (Src × List AsmNum)
  | .reg r => some (.reg r, [])
  | .ind r => some (.ind r, [])
  | .idx n r => some (.idx r, [n])
  | .push => none
  | .pop => some (.pop, [])
  | .peek => some (.peek, [])
  | .pick n => some (.pick, [n])
  | .sp => some (.sp, [])
  | .pc => some (.pc, [])
  | .ex => some (.ex, [])
  | .mem n => some (.mem, [n])
  | .lit (.num v) => if shortFits v then some (.short v, []) else some (.lit, [.num v])
  | .lit (.label l) => some (.lit, [.label l])

/-- The first entry of a list of pairs under a name. R62 does not say what a label defined twice stands for; that its first
definition wins is the model's DESIGN CHOICE (log 37). -/
def named {α : Type} (name : String) : List (String × α) → Option α
  | [] => none
  | (n, x) :: rest => if n = name then some x else named name rest

/-- The instruction of a line and its next words in the order they stand in memory: b's first, then a's (rule R54). A label
line is no instruction. -/
def AsmLine.instr : AsmLine → Option (Instr × List AsmNum)
  | .label _ => none
  | .basic m a b => do
    let f ← named m basicMnemonics
    let da ← a.asDst
    let sb ← b.asSrc
    some (f da.1 sb.1, sb.2 ++ da.2)
  | .special m a => do
    let f ← named m specialMnemonics
    let da ← a.asDst
    some (f da.1, da.2)
  | .bare m => do
    let i ← named m bareMnemonics
    some (i, [])

/-- The address of every label, the next word's address being `addr` (rule R62); none where a line is no instruction. That
addresses go on modulo 0x10000 in a program too long for RAM is a DESIGN CHOICE (log 39). -/
def labelAddresses : List AsmLine → Word → Option (List (String × Word))
  | [], _ => some []
  | .label l :: rest, addr => do
    let ls ← labelAddresses rest addr
    some ((l, addr) :: ls)
  | line :: rest, addr => do
    let i ← line.instr
    labelAddresses rest (addr + BitVec.ofNat 16 (1 + i.2.length))

/-- The word a number stands for; none for a label that is nowhere defined (DESIGN CHOICE, log 39). -/
def AsmNum.value (labels : List (String × Word)) : AsmNum → Option Word
  | .num v => some v
  | .label l => named l labels

/-- The words of a list of numbers. -/
def asmWords (labels : List (String × Word)) : List AsmNum → Option (List Word)
  | [] => some []
  | n :: rest => do
    let w ← n.value labels
    let ws ← asmWords labels rest
    some (w :: ws)

/-- The words of an instruction line: the first word, then its next words. -/
def AsmLine.words (labels : List (String × Word)) (line : AsmLine) : Option (List Word) := do
  let i ← line.instr
  let ws ← asmWords labels i.2
  some (encode i.1 :: ws)

/-- The words of a program, its first word at address `addr`. -/
def assembleLines (labels : List (String × Word)) : List AsmLine → Option (List Word)
  | [] => some []
  | .label _ :: rest => assembleLines labels rest
  | line :: rest => do
    let ws ← line.words labels
    let more ← assembleLines labels rest
    some (ws ++ more)

/-- A program assembled at address 0, an image for `State.boot`. -/
def assemble (lines : List AsmLine) : Option (List Word) := do
  let labels ← labelAddresses lines 0
  assembleLines labels lines

/-! ### The idioms of rule R64 -/

/-- JMP: `SET PC, target`. -/
def idiomJump (target : AsmNum) : AsmLine := .basic "SET" .pc (.lit target)
/-- A short relative jump forward: `ADD PC, dist`. -/
def idiomForward (dist : Word) : AsmLine := .basic "ADD" .pc (.lit (.num dist))
/-- A short relative jump backward: `SUB PC, dist`. -/
def idiomBackward (dist : Word) : AsmLine := .basic "SUB" .pc (.lit (.num dist))
/-- RET: `SET PC, POP`. -/
def idiomReturn : AsmLine := .basic "SET" .pc .pop
/-- Push: `SET PUSH, v`. -/
def idiomPush (v : AsmOperand) : AsmLine := .basic "SET" .push v
/-- Pop: `SET r, POP`. -/
def idiomPop (r : AsmOperand) : AsmLine := .basic "SET" r .pop
/-- Hang: `:name SET PC, name`. -/
def idiomHang (name : String) : List AsmLine := [.label name, idiomJump (.label name)]

end Sys2Proof.Machine
end

