-- ==== Sys2Proof/Safety.lean ====
section
/-! DEFINITION. The terms claims are stated in: what the operands of an instruction denote, which invariants a safe run keeps,
when a run has ended, and a handler's way back. -/

namespace Sys2Proof.Machine

/-! ### What a basic instruction's operands denote (rules R70, R83 to R85) -/

/-- The word operand b evaluates to; b is handled first. -/
def srcValue (b : Src) (s : State) : Word := (evalB b s).1
/-- The location operand a evaluates to, after b. -/
def dstLoc (a : Dst) (b : Src) (s : State) : Loc := (evalA a (evalB b s).2).1
/-- The word at that location before anything is written. -/
def dstValue (a : Dst) (b : Src) (s : State) : Word := readLoc (dstLoc a b s) (evalA a (evalB b s).2).2
/-- The location the operand of a special instruction evaluates to (rule R89). -/
def opLoc (a : Dst) (s : State) : Loc := (evalA a s).1
/-- The word at that location. -/
def opValue (a : Dst) (s : State) : Word := readLoc (opLoc a s) (evalA a s).2

/-- How PUSH in a moves SP (rule R74). -/
def dstSpMove : Dst → Word
  | .push => 0xffff#16
  | .reg _ | .ind _ | .idx _ | .peek | .pick | .sp | .pc | .ex | .mem | .lit => 0#16

/-- How POP in b moves SP (rule R74). -/
def srcSpMove : Src → Word
  | .pop => 1#16
  | .reg _ | .ind _ | .idx _ | .peek | .pick | .sp | .pc | .ex | .mem | .lit | .short _ => 0#16

/-- Location `l` holds `v` in `t`. Nothing is asked of a literal, which holds nothing (R88). -/
def Holds (l : Loc) (v : Word) (t : State) : Prop :=
  match l with
  | .reg r => t.reg r = v
  | .mem addr => t.read addr = v
  | .sp => t.sp = v
  | .pc => t.pc = v
  | .ex => t.ex = v
  | .lit _ => True

/-- As `Holds`, for an instruction that also writes EX: nothing is asked of EX, where the side effect wins (R109). -/
def HoldsUnlessEx (l : Loc) (v : Word) (t : State) : Prop := l ≠ .ex → Holds l v t

/-- From `s` to `t` every general register but the location `l` is unchanged. -/
def RegsKept (l : Loc) (s t : State) : Prop := ∀ r, l ≠ .reg r → t.reg r = s.reg r

/-- From `s` to `t` every RAM word but the location `l` reads as before. -/
def RamKept (l : Loc) (s t : State) : Prop := ∀ addr, l ≠ .mem addr → t.read addr = s.read addr

/-- From `s` to `t` CR, the schedule of interrupts and the parameters are unchanged. -/
def ControlKept (s t : State) : Prop := t.cr = s.cr ∧ t.extIrq = s.extIrq ∧ t.config = s.config

/-- The number of next words of a basic instruction's operands, as a word. -/
def operandWords (a : Dst) (b : Src) : Word := BitVec.ofNat 16 (b.nextWords + a.nextWords)

/-- What a basic instruction with operands `a`, `b` leaves alone: every register and RAM word but its destination, CR, and,
unless they are the destination, SP but for the operands' own moves and PC but for the next words taken. -/
def BasicFrame (a : Dst) (b : Src) (l : Loc) (s t : State) : Prop :=
  RegsKept l s t ∧ RamKept l s t ∧ ControlKept s t ∧
  (l ≠ .sp → t.sp = s.sp + srcSpMove b + dstSpMove a) ∧
  (l ≠ .pc → t.pc = s.pc + operandWords a b)

/-! ### Words a statement computes on its own -/

/-- The encoding a rule of a basic instruction gives: `(b<<10) | (a<<5) | o`. -/
def EncodedAs (i : Instr) (o : Nat) (a : Dst) (b : Src) : Prop :=
  (encode i).toNat = b.code.toNat <<< 10 ||| a.code.toNat <<< 5 ||| o

/-- The encoding a rule of a special instruction gives: `(a<<11) | (s<<4)`. -/
def EncodedAsSpecial (i : Instr) (s : Nat) (a : Dst) : Prop := (encode i).toNat = a.code.toNat <<< 11 ||| s <<< 4

/-- `q` is the quotient of `x` by `y` rounded as `r` says: the rest is smaller than the divisor, and it has the sign of the
dividend when rounding toward zero, of the divisor when rounding to the floor. -/
def IsRounded (r : Rounding) (x y q : Int) : Prop :=
  |x - q * y| < |y| ∧
  match r with
  | .towardZero => 0 ≤ (x - q * y) * x
  | .floor => 0 ≤ (x - q * y) * y

/-- Instruction `i`, run in `s` (its first word already fetched), writes PC: the ways rules R14 and R167 list. -/
def WritesPc (i : Instr) (s : State) : Prop :=
  match i with
  | .set a b | .add a b | .sub a b | .mul a b | .mli a b | .div a b | .dvi a b | .mod a b
  | .and a b | .bor a b | .xor a b | .shr a b | .asr a b | .shl a b => dstLoc a b s = .pc
  | .ifb a b => dstValue a b s &&& srcValue b s = 0#16
  | .ife a b => dstValue a b s ≠ srcValue b s
  | .ifn a b => dstValue a b s = srcValue b s
  | .ifg a b => (dstValue a b s).toInt ≤ (srcValue b s).toInt
  | .ifa a b => (dstValue a b s).toNat ≤ (srcValue b s).toNat
  | .ifl a b => (srcValue b s).toInt ≤ (dstValue a b s).toInt
  | .ifu a b => (srcValue b s).toNat ≤ (dstValue a b s).toNat
  | .jsr _ => True
  | .int _ => s.ifFlag = true ∧ s.read s.config.ivec ≠ noHandler
  | .lcr a => opLoc a s = .pc
  | .cli | .sti | .scr _ => False

/-- The instructions that have something to do with CR, or with the flag in it (rule R20). -/
def touchesCr : Instr → Bool
  | .int _ | .cli | .sti | .lcr _ | .scr _ => true
  | .set _ _ | .add _ _ | .sub _ _ | .mul _ _ | .mli _ _ | .div _ _ | .dvi _ _ | .mod _ _
  | .and _ _ | .bor _ _ | .xor _ _ | .shr _ _ | .asr _ _ | .shl _ _
  | .ifb _ _ | .ife _ _ | .ifn _ _ | .ifg _ _ | .ifa _ _ | .ifl _ _ | .ifu _ _ | .jsr _ => false

/-! ### Invariants of a safe run -/

/-- RAM is in canonical form (no address outside the 0x10000 words, no duplicate, no entry that reads as unlisted). -/
def RamCanonical (s : State) : Prop := Memory.wf s.mem

/-- The parameters are those of the machine `c`. -/
def HasConfig (c : Config) (s : State) : Prop := s.config = c

/-- Two states agree on all the machine has; they may differ in the cycles counted and in the parameter `SPECIAL_COST`. -/
def SameButTiming (s t : State) : Prop :=
  t.regs = s.regs ∧ t.pc = s.pc ∧ t.sp = s.sp ∧ t.ex = s.ex ∧ t.cr = s.cr ∧ t.mem = s.mem ∧ t.extIrq = s.extIrq ∧
  t.config.ivec = s.config.ivec ∧ t.config.dviRound = s.config.dviRound

/-- No interrupt can be taken at the coming boundary: none is scheduled there, or IF is 0. -/
def Quiet (s : State) : Prop := s.ifFlag = false ∨ s.extIrq.event 0 = none

/-! ### The end of a run (rule R220, a testing convention) -/

/-- The instruction at pc is a self-jump: `SET PC, p` at address p in either literal form, or the one-word `SUB PC, 1`. -/
def selfJump (s : State) : Bool :=
  match decode (s.read s.pc) with
  | .ok (.set .pc .lit) => s.read (s.pc + 1) = s.pc
  | .ok (.set .pc (.short v)) => v = s.pc
  | .ok (.sub .pc (.short v)) => v = 1#16
  | _ => false

/-- `EXT_IRQ` is exhausted: no coming boundary, however far, delivers an event. -/
def Schedule.Exhausted (e : Schedule) : Prop := ∀ k, e.event k = none

/-- The run has ended: a self-jump is about to execute, with `EXT_IRQ` exhausted or IF = 0. -/
def Ended (s : State) : Prop := selfJump s = true ∧ (s.extIrq.Exhausted ∨ s.ifFlag = false)

/-! ### A handler's way back (rules R189, R215): ordinary instructions, since there is no return instruction -/

/-- Run instructions one after the other, each with its first word already fetched, as long as none stops. -/
def execAll : List Instr → State → Host.Outcome State Fault Refusal
  | [], s => .next s
  | i :: is, s =>
    match exec i s with
    | .next t => execAll is t
    | .fault f => .fault f
    | .refused r => .refused r

/-- R189: `ADD SP, 2`, `STI`, `SET PC, POP`. -/
def handlerExit : List Instr := [.add .sp (.short 2#16), .sti, .set .pc .pop]

/-- R215: discard the number and the argument with instructions that do not write EX (here into a register the handler may
spend), then `STI`, `SET PC, POP`. -/
def handlerExitKeepingEx (junk : Reg) : List Instr := [.set (.reg junk) .pop, .set (.reg junk) .pop, .sti, .set .pc .pop]

end Sys2Proof.Machine
end

