-- ==== Sys2Proof/Certificates/Slice0/Obligations.lean ====
section
/-! DEFINITION. The statements for the provers. `s` is the state in which an instruction's first word has been fetched, unless
a statement speaks of `step`; `srcValue`, `dstLoc` and `dstValue` are the spec's `vb`, `loc` and `va`. -/

open Sys2Proof Sys2Proof.Machine

/-! ### Encoding (30_encoding.md) -/

/-- R52, R53, R56, R57, R71 to R82: no bit of an encoding is dropped. -/
def Obligations.DecodeOfEncode : Prop := ∀ i : Instr, i.wf = true → decode (encode i) = .ok i

/-- R60: every first word that is an instruction is the encoding of that instruction alone. -/
def Obligations.EncodeOfDecode : Prop := ∀ (w : Word) (i : Instr), decode w = .ok i → i.wf = true ∧ encode i = w

/-- R58, R59 (decisions D14, D15; log 19, log 20): the four classes of reserved first words, by their bits. -/
def Obligations.ReservedWordClasses : Prop :=
  ∀ w : Word,
    (decode w = .error .unassignedBasic ↔ w.toNat % 16 ≠ 0 ∧ (w.toNat % 32 = 0x0f ∨ 0x18 ≤ w.toNat % 32)) ∧
    (decode w = .error .specialZero ↔ w.toNat % 0x800 = 0) ∧
    (decode w = .error .specialReserved ↔ w.toNat % 16 = 0 ∧ 0x07 ≤ w.toNat % 0x800 / 16) ∧
    (decode w = .error .operandOnCliSti ↔ (w.toNat % 0x800 = 0x30 ∨ w.toNat % 0x800 = 0x40) ∧ w.toNat / 0x800 ≠ 0)

/-- Words written out by hand from the formats of R52, R53 and the tables of R56, R57 (95_test_vectors.md gives the same). -/
def Obligations.WrittenWordsDecode : Prop :=
  decode 0b000001_00000_00001#16 = .ok (.set (.reg .a) (.reg .b)) ∧
  decode 0b101011_00110_00001#16 = .ok (.set (.reg .i) (.short 10)) ∧
  decode 0b001000_10110_00001#16 = .ok (.set (.idx .i) (.ind .a)) ∧
  decode 0b100011_11011_00010#16 = .ok (.add .sp (.short 2)) ∧
  decode 0b011110_00000_00011#16 = .ok (.sub (.reg .a) .mem) ∧
  decode 0b110001_00000_10011#16 = .ok (.ifn (.reg .a) (.short 16)) ∧
  decode 0b11111_0000001_0000#16 = .ok (.jsr .lit) ∧
  decode 0b00000_0000100_0000#16 = .ok .sti ∧
  decode 0b11000_0000101_0000#16 = .ok (.lcr .push)

/-- R50, R55 (decision D16): the length is 1 to 3 for every word, and for an instruction it counts its operands' next words. -/
def Obligations.LenOfFirstWord : Prop :=
  ∀ w : Word, 1 ≤ len w ∧ len w ≤ 3 ∧ ∀ i, decode w = .ok i → len w = 1 + i.nextWords

/-- R54 (decision D8, log 14): `SET [addr], v` in three words, b's next word first. -/
def Obligations.ThreeWordStore : Prop :=
  ∀ (s : State) (v addr : Word), Quiet s → s.read s.pc = 0x7fc1#16 → s.read (s.pc + 1) = v → s.read (s.pc + 2) = addr →
    ∃ t, step s = .next t ∧ t.read addr = v ∧ (∀ x, x ≠ addr → t.read x = s.read x) ∧ t.pc = s.pc + 3 ∧
      t.regs = s.regs ∧ t.sp = s.sp ∧ t.ex = s.ex ∧ t.cr = s.cr

/-- R62, R63, R55: a source line assembles to a word that decodes to its instruction and tells the number of words. The lines
are the model's structured form (log 35), with a label for any number (log 38). -/
def Obligations.AssembledLineDecodes : Prop :=
  ∀ (labels : List (String × Word)) (line : AsmLine) (w : Word) (ws : List Word), line.words labels = some (w :: ws) →
    len w = 1 + ws.length ∧ ∃ i ns, line.instr = some (i, ns) ∧ decode w = .ok i

/-! ### The instruction cycle (R61) -/

/-- R61: a step is the boundary, the fetch of the first word, and the decoded instruction's own effect. -/
def Obligations.StepRunsDecodedInstruction : Prop :=
  ∀ (s : State) (i : Instr), decode ((boundary s).read (boundary s).pc) = .ok i →
    step s = exec i ((boundary s).setPc ((boundary s).pc + 1))

/-- R58, R61 (decisions D14, D30; log 19): a reserved word faults at once; pc is its address plus one and nothing else moved. -/
def Obligations.ReservedWordFaultsAtOnce : Prop :=
  ∀ (s : State) (why : Reserved), decode ((boundary s).read (boundary s).pc) = .error why →
    step s = .fault (.illegal why ((boundary s).read (boundary s).pc) ((boundary s).setPc ((boundary s).pc + 1)))

/-- R180, R192: every instruction runs to a next state in every state, and a step stops on reserved words alone. -/
def Obligations.EveryInstructionCompletes : Prop :=
  (∀ (i : Instr) (s : State), ∃ t, exec i s = .next t) ∧
  (∀ s : State, (∃ t, step s = .next t) ∨
    ∃ why, decode ((boundary s).read (boundary s).pc) = .error why ∧
      step s = .fault (.illegal why ((boundary s).read (boundary s).pc) (fetch (boundary s)).2))

/-- R12: a word read through PC moves it by one, and an instruction that does not write PC leaves it at its own address plus
its length, modulo 0x10000. -/
def Obligations.PcPastInstructionUnlessWritten : Prop :=
  (∀ s : State, (fetch s).1 = s.read s.pc ∧ (fetch s).2.pc = s.pc + 1) ∧
  ∀ (s : State) (i : Instr), decode ((boundary s).read (boundary s).pc) = .ok i →
    ¬ WritesPc i ((boundary s).setPc ((boundary s).pc + 1)) →
    ∃ t, step s = .next t ∧ t.pc = (boundary s).pc + BitVec.ofNat 16 (len ((boundary s).read (boundary s).pc))

/-! ### Operands (40_operands.md) -/

/-- R83: the word each b value code gives and how it moves pc and sp; `r.code` is the register's number (R10). -/
def Obligations.SourceOperandTable : Prop :=
  ∀ (s : State) (r : Reg),
    evalB (decodeSrc (0b000#3 ++ r.code)) s = (s.reg r, s) ∧
    evalB (decodeSrc (0b001#3 ++ r.code)) s = (s.read (s.reg r), s) ∧
    evalB (decodeSrc (0b010#3 ++ r.code)) s = (s.read (s.reg r + s.read s.pc), { s with pc := s.pc + 1 }) ∧
    evalB (decodeSrc 0x18#6) s = (s.read s.sp, { s with sp := s.sp + 1 }) ∧
    evalB (decodeSrc 0x19#6) s = (s.read s.sp, s) ∧
    evalB (decodeSrc 0x1a#6) s = (s.read (s.sp + s.read s.pc), { s with pc := s.pc + 1 }) ∧
    evalB (decodeSrc 0x1b#6) s = (s.sp, s) ∧
    evalB (decodeSrc 0x1c#6) s = (s.pc, s) ∧
    evalB (decodeSrc 0x1d#6) s = (s.ex, s) ∧
    evalB (decodeSrc 0x1e#6) s = (s.read (s.read s.pc), { s with pc := s.pc + 1 }) ∧
    evalB (decodeSrc 0x1f#6) s = (s.read s.pc, { s with pc := s.pc + 1 }) ∧
    (∀ c : BitVec 6, 0x20 ≤ c.toNat → evalB (decodeSrc c) s = (BitVec.ofInt 16 ((c.toNat : Int) - 0x21), s))

/-- R84: the location each a value code gives and how it moves pc and sp; `r.code` is the register's number (R10). -/
def Obligations.DestinationOperandTable : Prop :=
  ∀ (s : State) (r : Reg),
    evalA (decodeDst (0b00#2 ++ r.code)) s = (.reg r, s) ∧
    evalA (decodeDst (0b01#2 ++ r.code)) s = (.mem (s.reg r), s) ∧
    evalA (decodeDst (0b10#2 ++ r.code)) s = (.mem (s.reg r + s.read s.pc), { s with pc := s.pc + 1 }) ∧
    evalA (decodeDst 0x18#5) s = (.mem (s.sp - 1), { s with sp := s.sp - 1 }) ∧
    evalA (decodeDst 0x19#5) s = (.mem s.sp, s) ∧
    evalA (decodeDst 0x1a#5) s = (.mem (s.sp + s.read s.pc), { s with pc := s.pc + 1 }) ∧
    evalA (decodeDst 0x1b#5) s = (.sp, s) ∧
    evalA (decodeDst 0x1c#5) s = (.pc, s) ∧
    evalA (decodeDst 0x1d#5) s = (.ex, s) ∧
    evalA (decodeDst 0x1e#5) s = (.mem (s.read s.pc), { s with pc := s.pc + 1 }) ∧
    evalA (decodeDst 0x1f#5) s = (.lit (s.read s.pc), { s with pc := s.pc + 1 })

/-- R35, R85, R86 (for literals also decision D9, log 15): a location read back gives the word written, every other location
reads as before, and a literal reads as itself and takes no write. -/
def Obligations.LocationReadAfterWrite : Prop :=
  ∀ (l : Loc) (v : Word) (s : State),
    ((∀ x, l ≠ .lit x) → readLoc l (writeLoc l v s) = v) ∧
    (∀ l', l' ≠ l → readLoc l' (writeLoc l v s) = readLoc l' s) ∧
    (∀ x, l = .lit x → readLoc l s = x ∧ writeLoc l v s = s)

/-! ### SET and arithmetic (41_set_arith.md) -/

/-- R101: a is set to b, and EX is unchanged unless it is a. (A literal destination: `LiteralDestinationDiscarded`.) -/
def Obligations.SetWritesSource : Prop :=
  ∀ (a : Dst) (b : Src) (s : State),
    EncodedAs (.set a b) 0x01 a b ∧
    ∃ t, exec (.set a b) s = .next t ∧ Holds (dstLoc a b s) (srcValue b s) t ∧
      (dstLoc a b s ≠ .ex → t.ex = s.ex) ∧ t.cycles = s.cycles + 1 + dstCost a + srcCost b

/-- R102, with the spec's decision D25 (overflow is the unsigned carry; log 29) and, where a is EX, D10 (log 16). -/
def Obligations.AddWrapsAndCarries : Prop :=
  ∀ (a : Dst) (b : Src) (s : State),
    EncodedAs (.add a b) 0x02 a b ∧
    ∃ t v, exec (.add a b) s = .next t ∧
      v.toNat = ((dstValue a b s).toNat + (srcValue b s).toNat) % 0x10000 ∧ HoldsUnlessEx (dstLoc a b s) v t ∧
      t.ex.toNat = ((dstValue a b s).toNat + (srcValue b s).toNat) / 0x10000

/-- R103, with the spec's decision D25 (underflow is the unsigned borrow; log 29) and, where a is EX, D10 (log 16). EX after
SUB is the high word of the 32-bit difference. -/
def Obligations.SubWrapsAndBorrows : Prop :=
  ∀ (a : Dst) (b : Src) (s : State),
    EncodedAs (.sub a b) 0x03 a b ∧
    ∃ t v, exec (.sub a b) s = .next t ∧ HoldsUnlessEx (dstLoc a b s) v t ∧
      (t.ex ++ v : BitVec 32).toInt = (dstValue a b s).toNat - (srcValue b s).toNat ∧
      (t.ex = 0xffff#16 ↔ (dstValue a b s).toNat < (srcValue b s).toNat)

/-- R104; where a is EX, `ExDestinationSideEffectWins` says what stays there. -/
def Obligations.MulFullProduct : Prop :=
  ∀ (a : Dst) (b : Src) (s : State),
    EncodedAs (.mul a b) 0x04 a b ∧
    ∃ t v, exec (.mul a b) s = .next t ∧ (dstLoc a b s ≠ .ex → Holds (dstLoc a b s) v t ∧
      t.ex.toNat * 0x10000 + v.toNat = (dstValue a b s).toNat * (srcValue b s).toNat) ∧
      t.cycles = s.cycles + 2 + dstCost a + srcCost b

/-- R105; where a is EX, `ExDestinationSideEffectWins` says what stays there. -/
def Obligations.MliFullProduct : Prop :=
  ∀ (a : Dst) (b : Src) (s : State),
    EncodedAs (.mli a b) 0x05 a b ∧
    ∃ t v, exec (.mli a b) s = .next t ∧ (dstLoc a b s ≠ .ex → Holds (dstLoc a b s) v t ∧
      (t.ex ++ v : BitVec 32).toInt = (dstValue a b s).toInt * (srcValue b s).toInt) ∧
      t.cycles = s.cycles + 2 + dstCost a + srcCost b

/-- R106: quotient and fraction word together are the quotient of `va << 16`, and both are 0 when the divisor is 0; where a is
EX, `ExDestinationSideEffectWins` says what stays there. -/
def Obligations.DivQuotientAndFraction : Prop :=
  ∀ (a : Dst) (b : Src) (s : State),
    EncodedAs (.div a b) 0x06 a b ∧
    ∃ t v, exec (.div a b) s = .next t ∧ (dstLoc a b s ≠ .ex → Holds (dstLoc a b s) v t ∧
      (srcValue b s = 0 → v = 0 ∧ t.ex = 0) ∧
      (srcValue b s ≠ 0 → v.toNat * 0x10000 + t.ex.toNat = (dstValue a b s).toNat * 0x10000 / (srcValue b s).toNat)) ∧
      t.cycles = s.cycles + 3 + dstCost a + srcCost b

/-- R107, with the rounding a parameter (decision D11, log 9) and, where a is EX, D10 (log 16): quotient and fraction word are
the rounded quotients of `s(va)` and of `s(va) << 16`, wrapped. -/
def Obligations.DviRoundedQuotient : Prop :=
  ∀ (a : Dst) (b : Src) (s : State),
    EncodedAs (.dvi a b) 0x07 a b ∧
    ∃ t v, exec (.dvi a b) s = .next t ∧ HoldsUnlessEx (dstLoc a b s) v t ∧
      (srcValue b s = 0 → v = 0 ∧ t.ex = 0) ∧
      (srcValue b s ≠ 0 → ∃ q f : Int,
        IsRounded s.config.dviRound (dstValue a b s).toInt (srcValue b s).toInt q ∧ v = BitVec.ofInt 16 q ∧
        IsRounded s.config.dviRound ((dstValue a b s).toInt * 0x10000) (srcValue b s).toInt f ∧ t.ex = BitVec.ofInt 16 f)

/-- R108, with the spec's decision D12 (unsigned, EX unchanged; log 17). -/
def Obligations.ModRemainder : Prop :=
  ∀ (a : Dst) (b : Src) (s : State),
    EncodedAs (.mod a b) 0x08 a b ∧
    ∃ t v, exec (.mod a b) s = .next t ∧ Holds (dstLoc a b s) v t ∧ (dstLoc a b s ≠ .ex → t.ex = s.ex) ∧
      (srcValue b s = 0 → v = 0) ∧
      (srcValue b s ≠ 0 → v.toNat < (srcValue b s).toNat ∧
        ∃ k, (dstValue a b s).toNat = k * (srcValue b s).toNat + v.toNat)

/-! ### Logic and shifts (42_logic_shift.md) -/

/-- R120, R121, R122, bit by bit; EX is unchanged. (A literal destination: `LiteralDestinationDiscarded`.) -/
def Obligations.BitwiseResults : Prop :=
  ∀ (a : Dst) (b : Src) (s : State),
    (EncodedAs (.and a b) 0x09 a b ∧ ∃ t v, exec (.and a b) s = .next t ∧ Holds (dstLoc a b s) v t ∧
      (∀ k < 16, v.getLsbD k = true ↔ (dstValue a b s).getLsbD k = true ∧ (srcValue b s).getLsbD k = true) ∧
      (dstLoc a b s ≠ .ex → t.ex = s.ex) ∧ t.cycles = s.cycles + 1 + dstCost a + srcCost b) ∧
    (EncodedAs (.bor a b) 0x0a a b ∧ ∃ t v, exec (.bor a b) s = .next t ∧ Holds (dstLoc a b s) v t ∧
      (∀ k < 16, v.getLsbD k = true ↔ (dstValue a b s).getLsbD k = true ∨ (srcValue b s).getLsbD k = true) ∧
      (dstLoc a b s ≠ .ex → t.ex = s.ex) ∧ t.cycles = s.cycles + 1 + dstCost a + srcCost b) ∧
    (EncodedAs (.xor a b) 0x0b a b ∧ ∃ t v, exec (.xor a b) s = .next t ∧ Holds (dstLoc a b s) v t ∧
      (∀ k < 16, v.getLsbD k = true ↔ (dstValue a b s).getLsbD k ≠ (srcValue b s).getLsbD k) ∧
      (dstLoc a b s ≠ .ex → t.ex = s.ex) ∧ t.cycles = s.cycles + 1 + dstCost a + srcCost b)

/-- R123, with the spec's decision D13 (whole-word count; log 18) and, where a is EX, D10 (log 16): result and EX together are
`va << 16` shifted right. -/
def Obligations.ShrShiftsPair : Prop :=
  ∀ (a : Dst) (b : Src) (s : State),
    EncodedAs (.shr a b) 0x0c a b ∧
    ∃ t v, exec (.shr a b) s = .next t ∧ HoldsUnlessEx (dstLoc a b s) v t ∧
      (v ++ t.ex : BitVec 32).toNat = (dstValue a b s).toNat * 0x10000 / 2 ^ (srcValue b s).toNat

/-- R124, with the spec's decision D13 (log 18) and, where a is EX, D10 (log 16): the result is the signed floor quotient by
the power of two, and EX the bits shifted out, zero filled. -/
def Obligations.AsrFillsSign : Prop :=
  ∀ (a : Dst) (b : Src) (s : State),
    EncodedAs (.asr a b) 0x0d a b ∧
    ∃ t v, exec (.asr a b) s = .next t ∧ HoldsUnlessEx (dstLoc a b s) v t ∧
      v.toInt = (dstValue a b s).toInt / 2 ^ (srcValue b s).toNat ∧
      t.ex.toNat = (dstValue a b s).toNat * 0x10000 / 2 ^ (srcValue b s).toNat % 0x10000

/-- R125, with the spec's decision D13 (log 18) and, where a is EX, D10 (log 16): EX and result together are the low 32 bits
of the exact product by the power of two. -/
def Obligations.ShlShiftsPair : Prop :=
  ∀ (a : Dst) (b : Src) (s : State),
    EncodedAs (.shl a b) 0x0e a b ∧
    ∃ t v, exec (.shl a b) s = .next t ∧ HoldsUnlessEx (dstLoc a b s) v t ∧
      (t.ex ++ v : BitVec 32).toNat = (dstValue a b s).toNat * 2 ^ (srcValue b s).toNat % 0x100000000

/-! ### Conditionals (43_conditional.md) -/

/-- R141 to R147: the instruction after the conditional is the next one performed exactly when the test holds; IFG and IFL
compare signed, IFA and IFU unsigned. -/
def Obligations.ConditionalTests : Prop :=
  ∀ (a : Dst) (b : Src) (s : State),
    (EncodedAs (.ifb a b) 0x11 a b ∧ ∃ t, exec (.ifb a b) s = .next t ∧
      (t.pc = s.pc + operandWords a b ↔ dstValue a b s &&& srcValue b s ≠ 0#16)) ∧
    (EncodedAs (.ife a b) 0x12 a b ∧ ∃ t, exec (.ife a b) s = .next t ∧
      (t.pc = s.pc + operandWords a b ↔ dstValue a b s = srcValue b s)) ∧
    (EncodedAs (.ifn a b) 0x13 a b ∧ ∃ t, exec (.ifn a b) s = .next t ∧
      (t.pc = s.pc + operandWords a b ↔ dstValue a b s ≠ srcValue b s)) ∧
    (EncodedAs (.ifg a b) 0x14 a b ∧ ∃ t, exec (.ifg a b) s = .next t ∧
      (t.pc = s.pc + operandWords a b ↔ (dstValue a b s).toInt > (srcValue b s).toInt)) ∧
    (EncodedAs (.ifa a b) 0x15 a b ∧ ∃ t, exec (.ifa a b) s = .next t ∧
      (t.pc = s.pc + operandWords a b ↔ (dstValue a b s).toNat > (srcValue b s).toNat)) ∧
    (EncodedAs (.ifl a b) 0x16 a b ∧ ∃ t, exec (.ifl a b) s = .next t ∧
      (t.pc = s.pc + operandWords a b ↔ (dstValue a b s).toInt < (srcValue b s).toInt)) ∧
    (EncodedAs (.ifu a b) 0x17 a b ∧ ∃ t, exec (.ifu a b) s = .next t ∧
      (t.pc = s.pc + operandWords a b ↔ (dstValue a b s).toNat < (srcValue b s).toNat))

/-- R140, R148 (decisions D16, D30; log 21): where a conditional's test fails it passes over exactly one instruction, of the
length its first word tells, whatever that word is, at one more cycle. -/
def Obligations.FailingTestSkipsOneInstruction : Prop :=
  ∀ (i : Instr) (a : Dst) (b : Src) (s : State),
    (i = .ifb a b ∨ i = .ife a b ∨ i = .ifn a b ∨ i = .ifg a b ∨ i = .ifa a b ∨ i = .ifl a b ∨ i = .ifu a b) →
    WritesPc i s →
    ∃ t, exec i s = .next t ∧
      t.pc = s.pc + operandWords a b + BitVec.ofNat 16 (len (s.read (s.pc + operandWords a b))) ∧
      t.cycles = s.cycles + 3 + dstCost a + srcCost b

/-- R140 (decision D16, log 21): whether its test holds or not, a conditional writes nothing but pc and, through its operands,
sp. -/
def Obligations.ConditionalFrame : Prop :=
  ∀ (i : Instr) (a : Dst) (b : Src) (s : State),
    (i = .ifb a b ∨ i = .ife a b ∨ i = .ifn a b ∨ i = .ifg a b ∨ i = .ifa a b ∨ i = .ifl a b ∨ i = .ifu a b) →
    ∃ t, exec i s = .next t ∧ t.regs = s.regs ∧ t.mem = s.mem ∧ t.ex = s.ex ∧ ControlKept s t ∧
      t.sp = s.sp + srcSpMove b + dstSpMove a

/-! ### Special instructions (44_special.md) -/

/-- R161 (decision D18, log 23): the target is read before the push, the return address is the next instruction's, and
nothing else changes. -/
def Obligations.JsrPushesReturnAddress : Prop :=
  ∀ (a : Dst) (s : State),
    EncodedAsSpecial (.jsr a) 0x01 a ∧
    ∃ t, exec (.jsr a) s = .next t ∧ t.pc = opValue a s ∧
      t.sp = s.sp + dstSpMove a - 1 ∧ t.read t.sp = s.pc + BitVec.ofNat 16 a.nextWords ∧
      (∀ addr, addr ≠ t.sp → t.read addr = s.read addr) ∧ t.regs = s.regs ∧ t.ex = s.ex ∧ ControlKept s t ∧
      t.cycles = s.cycles + 2 + dstCost a

/-- R14, R64, R161: `SET PC, POP` returns from `JSR a` to the instruction after it, with the stack as the JSR's operand left
it. -/
def Obligations.ReturnFollowsCall : Prop :=
  ∀ (a : Dst) (s : State), ∃ t u, exec (.jsr a) s = .next t ∧ exec (.set .pc .pop) t = .next u ∧
    u.pc = s.pc + BitVec.ofNat 16 a.nextWords ∧ u.sp = s.sp + dstSpMove a ∧ u.regs = s.regs ∧ u.ex = s.ex

/-- R162, R184 (decisions D20, D28; log 25, log 30): INT with IF = 1 and a handler enters it with the return address, 0 and
the number on the stack. -/
def Obligations.IntEntersHandler : Prop :=
  ∀ (a : Dst) (s : State), s.ifFlag = true → s.read s.config.ivec ≠ noHandler →
    EncodedAsSpecial (.int a) 0x02 a ∧
    ∃ t, exec (.int a) s = .next t ∧ t.pc = s.read s.config.ivec ∧
      t.sp = s.sp + dstSpMove a - 3 ∧
      t.read t.sp = opValue a s ∧ t.read (t.sp + 1) = 0 ∧ t.read (t.sp + 2) = s.pc + BitVec.ofNat 16 a.nextWords ∧
      (∀ addr, addr ≠ t.sp → addr ≠ t.sp + 1 → addr ≠ t.sp + 2 → t.read addr = s.read addr) ∧
      t.cr = s.cr - 1 ∧ t.regs = s.regs ∧ t.ex = s.ex ∧ t.extIrq = s.extIrq ∧ t.config = s.config

/-- R162, R186, R187 (decision D20, log 25): INT with IF = 0, or with the handler word 0xFFFF, only evaluates its operand; in
the second case IF ends at 0. -/
def Obligations.IntWithoutHandlerContinues : Prop :=
  ∀ (a : Dst) (s : State), s.ifFlag = false ∨ s.read s.config.ivec = noHandler →
    ∃ t, exec (.int a) s = .next t ∧ t.pc = s.pc + BitVec.ofNat 16 a.nextWords ∧ t.sp = s.sp + dstSpMove a ∧
      t.mem = s.mem ∧ t.regs = s.regs ∧ t.ex = s.ex ∧ t.extIrq = s.extIrq ∧ t.config = s.config ∧
      t.cr.toNat = s.cr.toNat / 2 * 2

/-- R163, R164 (bits 15:1 by the spec's decision D17, log 22): CLI and STI write IF and nothing else, and take no operand. -/
def Obligations.CliStiWriteIfOnly : Prop :=
  ∀ s : State,
    encode .cli = 0x0030#16 ∧ encode .sti = 0x0040#16 ∧
    (∃ t, exec .cli s = .next t ∧ t.ifFlag = false ∧ (∀ k < 15, t.cr.getLsbD (k + 1) = s.cr.getLsbD (k + 1)) ∧
      { t with cr := s.cr, cycles := s.cycles } = s) ∧
    (∃ t, exec .sti s = .next t ∧ t.ifFlag = true ∧ (∀ k < 15, t.cr.getLsbD (k + 1) = s.cr.getLsbD (k + 1)) ∧
      { t with cr := s.cr, cycles := s.cycles } = s)

/-- R165 (decisions D17, D9; log 22, log 15): LCR delivers all of CR and changes nothing but its destination. -/
def Obligations.LcrDeliversCr : Prop :=
  ∀ (a : Dst) (s : State),
    EncodedAsSpecial (.lcr a) 0x05 a ∧
    ∃ t, exec (.lcr a) s = .next t ∧ Holds (opLoc a s) s.cr t ∧
      RegsKept (opLoc a s) s t ∧ RamKept (opLoc a s) s t ∧ ControlKept s t ∧ (opLoc a s ≠ .ex → t.ex = s.ex) ∧
      (opLoc a s ≠ .sp → t.sp = s.sp + dstSpMove a) ∧
      (opLoc a s ≠ .pc → t.pc = s.pc + BitVec.ofNat 16 a.nextWords)

/-- R166 (decisions D17, D18; log 22, log 23): SCR stores all of its operand into CR and changes nothing else. -/
def Obligations.ScrStoresCr : Prop :=
  ∀ (a : Dst) (s : State),
    EncodedAsSpecial (.scr a) 0x06 a ∧
    ∃ t, exec (.scr a) s = .next t ∧ t.cr = opValue a s ∧ t.regs = s.regs ∧ t.mem = s.mem ∧ t.ex = s.ex ∧
      t.sp = s.sp + dstSpMove a ∧ t.pc = s.pc + BitVec.ofNat 16 a.nextWords ∧ t.extIrq = s.extIrq ∧ t.config = s.config

/-! ### Frames over the basic instructions -/

/-- R11, R35, R100 (a literal destination: decision D9, log 15): the fourteen basic instructions that write a leave every
register, every RAM word and CR as they were, but for the location the a operand denotes after b was handled, and for SP and PC
as the operands move them. -/
def Obligations.BasicWriteFrame : Prop :=
  ∀ (i : Instr) (a : Dst) (b : Src) (s t : State),
    (i = .set a b ∨ i = .add a b ∨ i = .sub a b ∨ i = .mul a b ∨ i = .mli a b ∨ i = .div a b ∨ i = .dvi a b ∨
      i = .mod a b ∨ i = .and a b ∨ i = .bor a b ∨ i = .xor a b ∨ i = .shr a b ∨ i = .asr a b ∨ i = .shl a b) →
    exec i s = .next t → BasicFrame a b (dstLoc a b s) s t

/-- R16, R17: an instruction that is none of the nine of R17's table leaves EX as it was, unless its a operand is EX. -/
def Obligations.ExKeptByOtherInstructions : Prop :=
  ∀ (i : Instr) (s t : State),
    (∀ a b, i ≠ .add a b ∧ i ≠ .sub a b ∧ i ≠ .mul a b ∧ i ≠ .mli a b ∧ i ≠ .div a b ∧ i ≠ .dvi a b ∧
      i ≠ .shr a b ∧ i ≠ .asr a b ∧ i ≠ .shl a b) →
    (∀ b, i ≠ .set .ex b ∧ i ≠ .mod .ex b ∧ i ≠ .and .ex b ∧ i ≠ .bor .ex b ∧ i ≠ .xor .ex b) → i ≠ .lcr .ex →
    exec i s = .next t → t.ex = s.ex

/-- R88 (the spec's decision D9, log 15): with a literal destination nothing is written, everything else still happens. -/
def Obligations.LiteralDestinationDiscarded : Prop :=
  ∀ (i : Instr) (b : Src) (s : State),
    (i = .set .lit b ∨ i = .add .lit b ∨ i = .sub .lit b ∨ i = .mul .lit b ∨ i = .mli .lit b ∨ i = .div .lit b ∨
      i = .dvi .lit b ∨ i = .mod .lit b ∨ i = .and .lit b ∨ i = .bor .lit b ∨ i = .xor .lit b ∨ i = .shr .lit b ∨
      i = .asr .lit b ∨ i = .shl .lit b) →
    ∃ t, exec i s = .next t ∧ t.regs = s.regs ∧ t.mem = s.mem ∧ ControlKept s t ∧ t.sp = s.sp + srcSpMove b ∧
      t.pc = s.pc + operandWords .lit b

/-- R109 (the spec's decision D10, log 16): where a is EX and the instruction writes EX, the side effect stays there and the
result is lost. -/
def Obligations.ExDestinationSideEffectWins : Prop :=
  ∀ (b : Src) (s : State),
    (∃ t, exec (.mul .ex b) s = .next t ∧ t.ex.toNat = s.ex.toNat * (srcValue b s).toNat / 0x10000) ∧
    (∃ t, exec (.mli .ex b) s = .next t ∧
      (t.ex.toInt) * 0x10000 ≤ s.ex.toInt * (srcValue b s).toInt ∧
      s.ex.toInt * (srcValue b s).toInt < (t.ex.toInt + 1) * 0x10000) ∧
    (∃ t, exec (.div .ex b) s = .next t ∧ (srcValue b s = 0 → t.ex = 0) ∧
      (srcValue b s ≠ 0 → t.ex.toNat = s.ex.toNat * 0x10000 / (srcValue b s).toNat % 0x10000)) ∧
    (∃ t, exec (.add .ex b) s = .next t ∧ t.ex.toNat = (s.ex.toNat + (srcValue b s).toNat) / 0x10000) ∧
    (∃ t, exec (.shl .ex b) s = .next t ∧
      t.ex.toNat = s.ex.toNat * 2 ^ (srcValue b s).toNat / 0x10000 % 0x10000)

/-! ### Interrupts (60_exceptions.md) -/

/-- R185: the stack frame at handler entry: the number, the argument and the return PC, from SP upward. -/
def Obligations.HandlerStackFrame : Prop :=
  ∀ (n arg : Word) (s : State), s.ifFlag = true → s.read s.config.ivec ≠ noHandler →
    (interrupt n arg s).read (interrupt n arg s).sp = n ∧
    (interrupt n arg s).read ((interrupt n arg s).sp + 1) = arg ∧
    (interrupt n arg s).read ((interrupt n arg s).sp + 2) = s.pc

/-- R184, R187 (the spec's decision D20, log 25): what interrupt entry changes with IF = 1: IF is cleared in any case; with a
handler, SP moves down by 3 and PC goes to the handler; all else stays. -/
def Obligations.InterruptEntryEffect : Prop :=
  ∀ (n arg : Word) (s : State), s.ifFlag = true →
    (interrupt n arg s).cr = s.cr - 1 ∧
    (interrupt n arg s).regs = s.regs ∧ (interrupt n arg s).ex = s.ex ∧
    (s.read s.config.ivec = noHandler →
      (interrupt n arg s).pc = s.pc ∧ (interrupt n arg s).sp = s.sp ∧ (interrupt n arg s).mem = s.mem) ∧
    (s.read s.config.ivec ≠ noHandler →
      (interrupt n arg s).pc = s.read s.config.ivec ∧ (interrupt n arg s).sp = s.sp - 3 ∧
      ∀ addr, addr ≠ s.sp - 1 → addr ≠ s.sp - 2 → addr ≠ s.sp - 3 → (interrupt n arg s).read addr = s.read addr)

/-- R186: an interrupt that occurs while IF = 0 is skipped and lost, not held: interrupt entry changes nothing, after INT the
machine is as its operand left it, and after a boundary that delivers an event it is as if nothing had been delivered, each
but for the cycles counted. That a boundary leaves the rest of the schedule is the model's form of EXT_IRQ (log 8, a DESIGN
CHOICE; the spec's decisions D7, D26). -/
def Obligations.MaskedInterruptIsLost : Prop :=
  ∀ s : State, s.ifFlag = false →
    (∀ n arg, ∃ c, interrupt n arg s = { s with cycles := c }) ∧
    (∀ q, s.extIrq.event 0 = some q → ∃ c, boundary s = { s with extIrq := s.extIrq.rest, cycles := c }) ∧
    (∀ a, ∃ c, exec (.int a) s = .next { (evalA a s).2 with cycles := c })

/-- R7, R61, R183, R188 (decisions D7, D26; log 8, log 33, and for endless schedules log 36): the interrupt of a boundary is
taken before the first word of the next instruction is fetched, and that instruction then runs in the same step; a boundary
with no event, and an empty schedule, deliver nothing; after a boundary every later event, of a finite or an endless schedule,
is one boundary nearer. -/
def Obligations.HardwareInterruptBeforeFetch : Prop :=
  ∀ s : State,
    (∀ q, s.extIrq.event 0 = some q →
      step s = step { interrupt q.number q.argument s with extIrq := s.extIrq.rest.delay }) ∧
    (s.extIrq.event 0 = none → boundary s = { s with extIrq := s.extIrq.rest }) ∧
    (s.extIrq = Schedule.empty → boundary s = s) ∧
    (∀ k, (boundary s).extIrq.event k = s.extIrq.event (k + 1) ∧
      s.extIrq.rest.delay.event (k + 1) = s.extIrq.event (k + 1)) ∧
    s.extIrq.rest.delay.event 0 = none

/-- R189, R191, R215: after interrupt entry, `ADD SP, 2`, `STI`, `SET PC, POP` resumes the interrupted code with its
registers, SP and CR, and with EX 0, or 1 where SP wraps past 0xffff. -/
def Obligations.HandlerExitReturns : Prop :=
  ∀ (n arg : Word) (s : State), s.ifFlag = true → s.read s.config.ivec ≠ noHandler →
    ∃ t, execAll handlerExit (interrupt n arg s) = .next t ∧ t.pc = s.pc ∧ t.sp = s.sp ∧ t.cr = s.cr ∧
      t.regs = s.regs ∧ t.ex = (if s.sp = 1 ∨ s.sp = 2 then 1 else 0) ∧
      ∀ addr, addr ≠ s.sp - 1 → addr ≠ s.sp - 2 → addr ≠ s.sp - 3 → t.read addr = s.read addr

/-- R215: the exit that discards the two words with SET keeps the interrupted code's EX. -/
def Obligations.HandlerExitKeepsEx : Prop :=
  ∀ (n arg : Word) (junk : Reg) (s : State), s.ifFlag = true → s.read s.config.ivec ≠ noHandler →
    ∃ t, execAll (handlerExitKeepingEx junk) (interrupt n arg s) = .next t ∧ t.pc = s.pc ∧ t.sp = s.sp ∧
      t.cr = s.cr ∧ t.ex = s.ex ∧ ∀ r, r ≠ junk → t.reg r = s.reg r

/-! ### The control register and the parameters -/

/-- R18 (by SCR also R166): what IF is after any instruction. -/
def Obligations.IfFlagWriters : Prop :=
  ∀ (i : Instr) (s : State), ∃ t, exec i s = .next t ∧
    (i = .cli → t.ifFlag = false) ∧ (i = .sti → t.ifFlag = true) ∧
    (∀ a, i = .scr a → t.ifFlag = (opValue a s).getLsbD 0) ∧ (∀ a, i = .int a → t.ifFlag = false) ∧
    (i ≠ .cli → i ≠ .sti → (∀ a, i ≠ .scr a) → (∀ a, i ≠ .int a) → t.ifFlag = s.ifFlag)

/-- R21 (the spec's decision D17, log 22): only SCR changes bits 15:1 of CR; neither another instruction nor a hardware
interrupt does. -/
def Obligations.CrReservedBitsKept : Prop :=
  ∀ (s : State) (k : Nat), 1 ≤ k →
    (boundary s).cr.getLsbD k = s.cr.getLsbD k ∧
    ∀ (i : Instr) (t : State), (∀ a, i ≠ .scr a) → exec i s = .next t → t.cr.getLsbD k = s.cr.getLsbD k

/-- R20: no instruction but INT, CLI, STI, LCR and SCR reads or writes CR: run with another CR, it does the same and keeps
that CR. -/
def Obligations.CrInvisibleToOtherInstructions : Prop :=
  ∀ (i : Instr) (s : State) (v : Word), touchesCr i = false →
    ∃ t, exec i s = .next t ∧ t.cr = s.cr ∧ exec i (s.setCr v) = .next (t.setCr v)

/-- R5, R196: no step changes the machine's parameters. -/
def Obligations.ParametersNeverChange : Prop :=
  ∀ (c : Config) (s t : State), HasConfig c s → step s = .next t → HasConfig c t

/-! ### Memory and reset -/

/-- R22, R35: every step keeps RAM in canonical form. -/
def Obligations.StepKeepsRamCanonical : Prop :=
  ∀ s t : State, RamCanonical s → step s = .next t → RamCanonical t

/-- R22, R25: RAM is in canonical form after reset and after every launch. -/
def Obligations.LaunchRamCanonical : Prop :=
  RamCanonical State.reset ∧
  ∀ (c : Config) (q : Schedule) (image : List Word), RamCanonical (State.launch c q image)

/-- R30, R35: two canonical memories that read alike at all 0x10000 addresses are the same data (the form is the model's own,
log 6). -/
def Obligations.CanonicalRamDeterminedByReads : Prop :=
  ∀ m m' : Memory, Memory.wf m → Memory.wf m' → (∀ addr : Word, Memory.read m addr = Memory.read m' addr) → m = m'

/-- R6, R25, R210 (the spec's decision D5, log 4, log 5): word k of an image goes to address k and every other word is 0. -/
def Obligations.BootPlacesImage : Prop :=
  ∀ image : List Word, image.length ≤ 0x10000 →
    (∀ k (h : k < image.length), (State.boot image).read (BitVec.ofNat 16 k) = image[k]) ∧
    (∀ addr : Word, image.length ≤ addr.toNat → (State.boot image).read addr = 0) ∧
    { State.boot image with mem := [] } = State.reset

/-- R25, R210 (the spec's decisions D1 to D5; log 1 to 4): the state after reset. -/
def Obligations.ResetValues : Prop :=
  (∀ r, State.reset.reg r = 0) ∧ State.reset.pc = 0 ∧ State.reset.sp = 0 ∧ State.reset.ex = 0 ∧ State.reset.cr = 0 ∧
  State.reset.ifFlag = false ∧ (∀ addr, State.reset.read addr = 0) ∧ State.reset.extIrq.Exhausted ∧
  State.reset.config.ivec = 0xfffe#16 ∧ State.reset.config.dviRound = .towardZero

/-- R41 (the spec's decision D21, log 26): a word stored by SET at the address executed next is the very next word fetched. -/
def Obligations.StoreSeenByNextFetch : Prop :=
  ∀ (a : Dst) (b : Src) (s : State), ∃ t, exec (.set a b) s = .next t ∧
    (dstLoc a b s = .mem t.pc → (fetch t).1 = srcValue b s)

/-! ### Timing and the end of a run (70_reset_and_hazards.md) -/

/-- R217, for every basic instruction and JSR. -/
def Obligations.InstructionCycleCosts : Prop :=
  ∀ (i : Instr) (a : Dst) (b : Src) (s t : State), exec i s = .next t →
    ((i = .set a b ∨ i = .and a b ∨ i = .bor a b ∨ i = .xor a b) →
      t.cycles = s.cycles + 1 + dstCost a + srcCost b) ∧
    ((i = .add a b ∨ i = .sub a b ∨ i = .mul a b ∨ i = .mli a b ∨ i = .shr a b ∨ i = .shl a b ∨ i = .asr a b) →
      t.cycles = s.cycles + 2 + dstCost a + srcCost b) ∧
    ((i = .div a b ∨ i = .dvi a b ∨ i = .mod a b) → t.cycles = s.cycles + 3 + dstCost a + srcCost b) ∧
    ((i = .ifb a b ∨ i = .ife a b ∨ i = .ifn a b ∨ i = .ifg a b ∨ i = .ifa a b ∨ i = .ifl a b ∨ i = .ifu a b) →
      (¬ WritesPc i s → t.cycles = s.cycles + 2 + dstCost a + srcCost b) ∧
      (WritesPc i s → t.cycles = s.cycles + 2 + dstCost a + srcCost b + 1)) ∧
    (i = .jsr a → t.cycles = s.cycles + 2 + dstCost a)

/-- R216 (value 0x1a by the spec's decision D24, log 13): an operand costs one cycle exactly when its value code reads a next
word. -/
def Obligations.OperandCycleCosts : Prop :=
  (∀ c : BitVec 5, dstCost (decodeDst c) =
    if (0x10 ≤ c.toNat ∧ c.toNat ≤ 0x17) ∨ c.toNat = 0x1a ∨ c.toNat = 0x1e ∨ c.toNat = 0x1f then 1 else 0) ∧
  (∀ c : BitVec 6, srcCost (decodeSrc c) =
    if (0x10 ≤ c.toNat ∧ c.toNat ≤ 0x17) ∨ c.toNat = 0x1a ∨ c.toNat = 0x1e ∨ c.toNat = 0x1f then 1 else 0)

/-- "No functional rule of this spec depends on any cycle count" (70_reset_and_hazards.md section 4): two machines that differ
only in the cycles counted and in `SPECIAL_COST` step alike, and stop alike. -/
def Obligations.TimingInvisibleToPrograms : Prop :=
  ∀ s s' : State, SameButTiming s s' →
    (∃ t t', step s = .next t ∧ step s' = .next t' ∧ SameButTiming t t') ∨
    (∃ why w t t', step s = .fault (.illegal why w t) ∧ step s' = .fault (.illegal why w t') ∧ SameButTiming t t')

/-- R201, R220 (the spec's decision D23, log 28): a run that has ended stays ended: the self-jump leaves every register but EX
and all of RAM as they are. EXT_IRQ is exhausted where no coming boundary, however far, delivers an event. -/
def Obligations.EndedRunStaysEnded : Prop :=
  ∀ s : State, Ended s → ∃ t, step s = .next t ∧ Ended t ∧ t.pc = s.pc ∧ t.sp = s.sp ∧ t.cr = s.cr ∧
    t.regs = s.regs ∧ t.mem = s.mem
end

