-- ==== Sys2Proof/Laws/Encode.lean ====
section
/-! SUPPORT. The parts of an encoding read back: registers, value codes and the fields of the two formats. -/

namespace Sys2Proof

@[simp] theorem decodeReg_code (r : Reg) : decodeReg r.code = r := by cases r <;> rfl

@[simp] theorem decodeDst_code (a : Dst) : decodeDst a.code = a := by
  cases a with
  | reg r | ind r | idx r => cases r <;> rfl
  | _ => rfl

/-- The word under a short literal is one of thirty-two. -/
theorem shortFits_iff (v : Word) : shortFits v = true ↔ v = 0xffff#16 ∨ v.toNat ≤ 30 := by
  simp [shortFits]

theorem decodeSrc_code {b : Src} (h : b.wf = true) : decodeSrc b.code = b := by
  cases b with
  | reg r | ind r | idx r => cases r <;> rfl
  | short v =>
    rcases (shortFits_iff v).mp h with rfl | hv
    · rfl
    · have key : ∀ n : Fin 31, decodeSrc (Src.code (.short (BitVec.ofNat 16 n.val))) = .short (BitVec.ofNat 16 n.val) := by
        decide
      simpa using key ⟨v.toNat, by omega⟩
  | _ => rfl

/-! ### The fields of a built word -/

@[simp] theorem fieldO_basicWord (o : BitVec 5) (a : Dst) (b : Src) : fieldO (basicWord o a b) = o := by
  unfold fieldO basicWord
  exact BitVec.extractLsb'_append_eq_right

@[simp] theorem fieldA_basicWord (o : BitVec 5) (a : Dst) (b : Src) : fieldA (basicWord o a b) = a.code := by
  apply BitVec.eq_of_toNat_eq
  simp only [fieldA, basicWord, BitVec.extractLsb'_toNat, BitVec.toNat_append, Nat.shiftRight_eq_div_pow,
    Nat.shiftLeft_eq]
  have := a.code.isLt
  have := o.isLt
  rw [← Nat.shiftLeft_eq, ← Nat.shiftLeft_add_eq_or_of_lt (by omega), ← Nat.shiftLeft_eq,
    ← Nat.shiftLeft_add_eq_or_of_lt (by omega)]
  simp only [Nat.shiftLeft_eq]
  omega

@[simp] theorem fieldB_basicWord (o : BitVec 5) (a : Dst) (b : Src) : fieldB (basicWord o a b) = b.code := by
  apply BitVec.eq_of_toNat_eq
  simp only [fieldB, basicWord, BitVec.extractLsb'_toNat, BitVec.toNat_append, Nat.shiftRight_eq_div_pow,
    Nat.shiftLeft_eq]
  have := a.code.isLt
  have := b.code.isLt
  have := o.isLt
  rw [← Nat.shiftLeft_eq, ← Nat.shiftLeft_add_eq_or_of_lt (by omega), ← Nat.shiftLeft_eq,
    ← Nat.shiftLeft_add_eq_or_of_lt (by omega)]
  simp only [Nat.shiftLeft_eq]
  omega

/-- A basic word is special exactly when its opcode's low four bits are 0 (rule R51). -/
theorem isSpecial_basicWord (o : BitVec 5) (a : Dst) (b : Src) :
    isSpecial (basicWord o a b) = decide (o.extractLsb' 0 4 = 0#4) := by
  unfold isSpecial
  congr 2
  apply BitVec.eq_of_toNat_eq
  simp only [basicWord, BitVec.extractLsb'_toNat, BitVec.toNat_append, Nat.shiftRight_zero]
  have := o.isLt
  rw [← Nat.shiftLeft_add_eq_or_of_lt (by omega)]
  simp only [Nat.shiftLeft_eq]
  omega

@[simp] theorem isSpecial_specialWord (s : BitVec 7) (a : BitVec 5) : isSpecial (specialWord s a) = true := by
  unfold isSpecial specialWord
  exact decide_eq_true BitVec.extractLsb'_append_eq_right

@[simp] theorem fieldS_specialWord (s : BitVec 7) (a : BitVec 5) : fieldS (specialWord s a) = s := by
  apply BitVec.eq_of_toNat_eq
  simp only [fieldS, specialWord, BitVec.extractLsb'_toNat, BitVec.toNat_append, Nat.shiftRight_eq_div_pow]
  have := s.isLt
  rw [← Nat.shiftLeft_add_eq_or_of_lt (by omega), ← Nat.shiftLeft_add_eq_or_of_lt (by simp; omega)]
  simp only [Nat.shiftLeft_eq, BitVec.toNat_ofNat]
  omega

@[simp] theorem fieldSpecialA_specialWord (s : BitVec 7) (a : BitVec 5) : fieldSpecialA (specialWord s a) = a := by
  apply BitVec.eq_of_toNat_eq
  simp only [fieldSpecialA, specialWord, BitVec.extractLsb'_toNat, BitVec.toNat_append, Nat.shiftRight_eq_div_pow]
  have := s.isLt
  have := a.isLt
  rw [← Nat.shiftLeft_add_eq_or_of_lt (by omega), ← Nat.shiftLeft_add_eq_or_of_lt (by simp; omega)]
  simp only [Nat.shiftLeft_eq, BitVec.toNat_ofNat]
  omega

/-! ### Next words, by code and by operand (rule R55) -/

theorem codeNextWords_dst (a : Dst) : codeNextWords a.code.toNat = a.nextWords := by
  cases a with
  | reg r | ind r | idx r => cases r <;> rfl
  | _ => rfl

theorem codeNextWords_src {b : Src} (h : b.wf = true) : codeNextWords b.code.toNat = b.nextWords := by
  cases b with
  | reg r | ind r | idx r => cases r <;> rfl
  | short v =>
    rcases (shortFits_iff v).mp h with rfl | hv
    · rfl
    · have key : ∀ n : Fin 31, codeNextWords (Src.code (.short (BitVec.ofNat 16 n.val))).toNat = 0 := by decide
      simpa [Src.nextWords] using key ⟨v.toNat, by omega⟩
  | _ => rfl

/-- The length of a basic word. -/
theorem len_basicWord {o : BitVec 5} (ho : o.extractLsb' 0 4 ≠ 0#4) (a : Dst) {b : Src} (h : b.wf = true) :
    len (basicWord o a b) = 1 + (a.nextWords + b.nextWords) := by
  unfold len
  simp only [isSpecial_basicWord, ho, decide_false, Bool.false_eq_true, if_false, fieldA_basicWord, fieldB_basicWord]
  rw [codeNextWords_dst, codeNextWords_src h, Nat.add_assoc]

/-- The length of a special word. -/
theorem len_specialWord (s : BitVec 7) (a : Dst) : len (specialWord s a.code) = 1 + a.nextWords := by
  unfold len
  simp only [isSpecial_specialWord, if_true, fieldSpecialA_specialWord, codeNextWords_dst]

end Sys2Proof
end

