-- ==== Sys2Proof/Laws/State.lean ====
section
/-! SUPPORT. What each update of the state does to each field, and how register reads meet register writes. -/

namespace Sys2Proof.Machine

/-! ### The register file -/

@[simp] theorem Gpr.get_set_same (g : Gpr) (r : Reg) (v : Word) : (g.set r v).get r = v := by
  cases r <;> rfl

theorem Gpr.get_set_ne (g : Gpr) {r q : Reg} (v : Word) (h : q ≠ r) : (g.set r v).get q = g.get q := by
  cases r <;> cases q <;> first | rfl | exact absurd rfl h

@[simp] theorem State.reg_setReg_same (s : State) (r : Reg) (v : Word) : (s.setReg r v).reg r = v :=
  Gpr.get_set_same _ _ _

theorem State.reg_setReg_ne (s : State) {r q : Reg} (v : Word) (h : q ≠ r) : (s.setReg r v).reg q = s.reg q :=
  Gpr.get_set_ne _ _ h

/-! ### The schedule of hardware interrupts -/

/-- One boundary later, every event is one boundary nearer. -/
@[simp] theorem Schedule.event_rest (e : Schedule) (k : Nat) : e.rest.event k = e.event (k + 1) := by
  obtain ⟨slots, tail⟩ := e
  cases slots with
  | cons => rfl
  | nil =>
    cases tail with
    | silent => rfl
    | free source next =>
      show Config.freeIrq source (next + 1 + k) = Config.freeIrq source (next + (k + 1))
      rw [Nat.add_right_comm, Nat.add_assoc]

@[simp] theorem Schedule.event_delay_zero (e : Schedule) : e.delay.event 0 = none := rfl
@[simp] theorem Schedule.event_delay_succ (e : Schedule) (k : Nat) : e.delay.event (k + 1) = e.event k := rfl
@[simp] theorem Schedule.rest_delay (e : Schedule) : e.delay.rest = e := rfl
@[simp] theorem Schedule.event_empty (k : Nat) : Schedule.empty.event k = none := rfl
@[simp] theorem Schedule.rest_empty : Schedule.empty.rest = Schedule.empty := rfl

/-! ### One lemma per update and field -/

@[simp] theorem State.setReg_regs (s : State) (r : Reg) (v : Word) : (s.setReg r v).regs = s.regs.set r v := rfl
@[simp] theorem State.setReg_pc (s : State) (r : Reg) (v : Word) : (s.setReg r v).pc = s.pc := rfl
@[simp] theorem State.setReg_sp (s : State) (r : Reg) (v : Word) : (s.setReg r v).sp = s.sp := rfl
@[simp] theorem State.setReg_ex (s : State) (r : Reg) (v : Word) : (s.setReg r v).ex = s.ex := rfl
@[simp] theorem State.setReg_cr (s : State) (r : Reg) (v : Word) : (s.setReg r v).cr = s.cr := rfl
@[simp] theorem State.setReg_mem (s : State) (r : Reg) (v : Word) : (s.setReg r v).mem = s.mem := rfl
@[simp] theorem State.setReg_extIrq (s : State) (r : Reg) (v : Word) : (s.setReg r v).extIrq = s.extIrq := rfl
@[simp] theorem State.setReg_config (s : State) (r : Reg) (v : Word) : (s.setReg r v).config = s.config := rfl
@[simp] theorem State.setReg_cycles (s : State) (r : Reg) (v : Word) : (s.setReg r v).cycles = s.cycles := rfl
@[simp] theorem State.setReg_read (s : State) (r : Reg) (v : Word) (x : Word) : (s.setReg r v).read x = s.read x := rfl
@[simp] theorem State.setReg_ifFlag (s : State) (r : Reg) (v : Word) : (s.setReg r v).ifFlag = s.ifFlag := rfl

@[simp] theorem State.setPc_regs (s : State) (v : Word) : (s.setPc v).regs = s.regs := rfl
@[simp] theorem State.setPc_pc (s : State) (v : Word) : (s.setPc v).pc = v := rfl
@[simp] theorem State.setPc_sp (s : State) (v : Word) : (s.setPc v).sp = s.sp := rfl
@[simp] theorem State.setPc_ex (s : State) (v : Word) : (s.setPc v).ex = s.ex := rfl
@[simp] theorem State.setPc_cr (s : State) (v : Word) : (s.setPc v).cr = s.cr := rfl
@[simp] theorem State.setPc_mem (s : State) (v : Word) : (s.setPc v).mem = s.mem := rfl
@[simp] theorem State.setPc_extIrq (s : State) (v : Word) : (s.setPc v).extIrq = s.extIrq := rfl
@[simp] theorem State.setPc_config (s : State) (v : Word) : (s.setPc v).config = s.config := rfl
@[simp] theorem State.setPc_cycles (s : State) (v : Word) : (s.setPc v).cycles = s.cycles := rfl
@[simp] theorem State.setPc_reg (s : State) (v : Word) (q : Reg) : (s.setPc v).reg q = s.reg q := rfl
@[simp] theorem State.setPc_read (s : State) (v : Word) (x : Word) : (s.setPc v).read x = s.read x := rfl
@[simp] theorem State.setPc_ifFlag (s : State) (v : Word) : (s.setPc v).ifFlag = s.ifFlag := rfl

@[simp] theorem State.setSp_regs (s : State) (v : Word) : (s.setSp v).regs = s.regs := rfl
@[simp] theorem State.setSp_pc (s : State) (v : Word) : (s.setSp v).pc = s.pc := rfl
@[simp] theorem State.setSp_sp (s : State) (v : Word) : (s.setSp v).sp = v := rfl
@[simp] theorem State.setSp_ex (s : State) (v : Word) : (s.setSp v).ex = s.ex := rfl
@[simp] theorem State.setSp_cr (s : State) (v : Word) : (s.setSp v).cr = s.cr := rfl
@[simp] theorem State.setSp_mem (s : State) (v : Word) : (s.setSp v).mem = s.mem := rfl
@[simp] theorem State.setSp_extIrq (s : State) (v : Word) : (s.setSp v).extIrq = s.extIrq := rfl
@[simp] theorem State.setSp_config (s : State) (v : Word) : (s.setSp v).config = s.config := rfl
@[simp] theorem State.setSp_cycles (s : State) (v : Word) : (s.setSp v).cycles = s.cycles := rfl
@[simp] theorem State.setSp_reg (s : State) (v : Word) (q : Reg) : (s.setSp v).reg q = s.reg q := rfl
@[simp] theorem State.setSp_read (s : State) (v : Word) (x : Word) : (s.setSp v).read x = s.read x := rfl
@[simp] theorem State.setSp_ifFlag (s : State) (v : Word) : (s.setSp v).ifFlag = s.ifFlag := rfl

@[simp] theorem State.setEx_regs (s : State) (v : Word) : (s.setEx v).regs = s.regs := rfl
@[simp] theorem State.setEx_pc (s : State) (v : Word) : (s.setEx v).pc = s.pc := rfl
@[simp] theorem State.setEx_sp (s : State) (v : Word) : (s.setEx v).sp = s.sp := rfl
@[simp] theorem State.setEx_ex (s : State) (v : Word) : (s.setEx v).ex = v := rfl
@[simp] theorem State.setEx_cr (s : State) (v : Word) : (s.setEx v).cr = s.cr := rfl
@[simp] theorem State.setEx_mem (s : State) (v : Word) : (s.setEx v).mem = s.mem := rfl
@[simp] theorem State.setEx_extIrq (s : State) (v : Word) : (s.setEx v).extIrq = s.extIrq := rfl
@[simp] theorem State.setEx_config (s : State) (v : Word) : (s.setEx v).config = s.config := rfl
@[simp] theorem State.setEx_cycles (s : State) (v : Word) : (s.setEx v).cycles = s.cycles := rfl
@[simp] theorem State.setEx_reg (s : State) (v : Word) (q : Reg) : (s.setEx v).reg q = s.reg q := rfl
@[simp] theorem State.setEx_read (s : State) (v : Word) (x : Word) : (s.setEx v).read x = s.read x := rfl
@[simp] theorem State.setEx_ifFlag (s : State) (v : Word) : (s.setEx v).ifFlag = s.ifFlag := rfl

@[simp] theorem State.setCr_regs (s : State) (v : Word) : (s.setCr v).regs = s.regs := rfl
@[simp] theorem State.setCr_pc (s : State) (v : Word) : (s.setCr v).pc = s.pc := rfl
@[simp] theorem State.setCr_sp (s : State) (v : Word) : (s.setCr v).sp = s.sp := rfl
@[simp] theorem State.setCr_ex (s : State) (v : Word) : (s.setCr v).ex = s.ex := rfl
@[simp] theorem State.setCr_cr (s : State) (v : Word) : (s.setCr v).cr = v := rfl
@[simp] theorem State.setCr_mem (s : State) (v : Word) : (s.setCr v).mem = s.mem := rfl
@[simp] theorem State.setCr_extIrq (s : State) (v : Word) : (s.setCr v).extIrq = s.extIrq := rfl
@[simp] theorem State.setCr_config (s : State) (v : Word) : (s.setCr v).config = s.config := rfl
@[simp] theorem State.setCr_cycles (s : State) (v : Word) : (s.setCr v).cycles = s.cycles := rfl
@[simp] theorem State.setCr_reg (s : State) (v : Word) (q : Reg) : (s.setCr v).reg q = s.reg q := rfl
@[simp] theorem State.setCr_read (s : State) (v : Word) (x : Word) : (s.setCr v).read x = s.read x := rfl

@[simp] theorem State.store_regs (s : State) (addr v : Word) : (s.store addr v).regs = s.regs := rfl
@[simp] theorem State.store_pc (s : State) (addr v : Word) : (s.store addr v).pc = s.pc := rfl
@[simp] theorem State.store_sp (s : State) (addr v : Word) : (s.store addr v).sp = s.sp := rfl
@[simp] theorem State.store_ex (s : State) (addr v : Word) : (s.store addr v).ex = s.ex := rfl
@[simp] theorem State.store_cr (s : State) (addr v : Word) : (s.store addr v).cr = s.cr := rfl
@[simp] theorem State.store_mem (s : State) (addr v : Word) : (s.store addr v).mem = Memory.write s.mem addr v := rfl
@[simp] theorem State.store_extIrq (s : State) (addr v : Word) : (s.store addr v).extIrq = s.extIrq := rfl
@[simp] theorem State.store_config (s : State) (addr v : Word) : (s.store addr v).config = s.config := rfl
@[simp] theorem State.store_cycles (s : State) (addr v : Word) : (s.store addr v).cycles = s.cycles := rfl
@[simp] theorem State.store_reg (s : State) (addr v : Word) (q : Reg) : (s.store addr v).reg q = s.reg q := rfl
@[simp] theorem State.store_ifFlag (s : State) (addr v : Word) : (s.store addr v).ifFlag = s.ifFlag := rfl

@[simp] theorem State.charge_regs (s : State) (n : Nat) : (s.charge n).regs = s.regs := rfl
@[simp] theorem State.charge_pc (s : State) (n : Nat) : (s.charge n).pc = s.pc := rfl
@[simp] theorem State.charge_sp (s : State) (n : Nat) : (s.charge n).sp = s.sp := rfl
@[simp] theorem State.charge_ex (s : State) (n : Nat) : (s.charge n).ex = s.ex := rfl
@[simp] theorem State.charge_cr (s : State) (n : Nat) : (s.charge n).cr = s.cr := rfl
@[simp] theorem State.charge_mem (s : State) (n : Nat) : (s.charge n).mem = s.mem := rfl
@[simp] theorem State.charge_extIrq (s : State) (n : Nat) : (s.charge n).extIrq = s.extIrq := rfl
@[simp] theorem State.charge_config (s : State) (n : Nat) : (s.charge n).config = s.config := rfl
@[simp] theorem State.charge_cycles (s : State) (n : Nat) : (s.charge n).cycles = s.cycles + n := rfl
@[simp] theorem State.charge_reg (s : State) (n : Nat) (q : Reg) : (s.charge n).reg q = s.reg q := rfl
@[simp] theorem State.charge_read (s : State) (n : Nat) (x : Word) : (s.charge n).read x = s.read x := rfl
@[simp] theorem State.charge_ifFlag (s : State) (n : Nat) : (s.charge n).ifFlag = s.ifFlag := rfl

@[simp] theorem State.dropSlot_regs (s : State) : (s.dropSlot).regs = s.regs := rfl
@[simp] theorem State.dropSlot_pc (s : State) : (s.dropSlot).pc = s.pc := rfl
@[simp] theorem State.dropSlot_sp (s : State) : (s.dropSlot).sp = s.sp := rfl
@[simp] theorem State.dropSlot_ex (s : State) : (s.dropSlot).ex = s.ex := rfl
@[simp] theorem State.dropSlot_cr (s : State) : (s.dropSlot).cr = s.cr := rfl
@[simp] theorem State.dropSlot_mem (s : State) : (s.dropSlot).mem = s.mem := rfl
@[simp] theorem State.dropSlot_extIrq (s : State) : (s.dropSlot).extIrq = s.extIrq.rest := rfl
@[simp] theorem State.dropSlot_config (s : State) : (s.dropSlot).config = s.config := rfl
@[simp] theorem State.dropSlot_cycles (s : State) : (s.dropSlot).cycles = s.cycles := rfl
@[simp] theorem State.dropSlot_reg (s : State) (q : Reg) : (s.dropSlot).reg q = s.reg q := rfl
@[simp] theorem State.dropSlot_read (s : State) (x : Word) : (s.dropSlot).read x = s.read x := rfl
@[simp] theorem State.dropSlot_ifFlag (s : State) : (s.dropSlot).ifFlag = s.ifFlag := rfl

end Sys2Proof.Machine
end

