-- ==== Sys2Proof/Laws/Memory.lean ====
section
/-! SUPPORT. The laws of RAM: read after write, and that every operation keeps the canonical form. -/

namespace Sys2Proof.Machine

/-! ### Lookup against the two halves of a write -/

theorem Memory.lookup_filter_ne (m : Memory) {n k : Nat} (h : k ≠ n) :
    Memory.lookup (m.filter (fun c => c.1 ≠ n)) k = Memory.lookup m k := by
  induction m with
  | nil => rfl
  | cons c m ih =>
    obtain ⟨j, w⟩ := c
    by_cases hj : j = n
    · subst hj; simpa [Memory.lookup, h.symm] using ih
    · simp only [ne_eq, hj, not_false_eq_true, decide_true, List.filter_cons_of_pos, Memory.lookup]
      simpa using by rw [← ih]; simp

theorem Memory.lookup_filter_same (m : Memory) (n : Nat) :
    Memory.lookup (m.filter (fun c => c.1 ≠ n)) n = Config.blankWord := by
  induction m with
  | nil => rfl
  | cons c m ih =>
    obtain ⟨j, w⟩ := c
    by_cases hj : j = n
    · subst hj; simpa using ih
    · simp only [ne_eq, hj, not_false_eq_true, decide_true, List.filter_cons_of_pos, Memory.lookup, if_false]
      simpa using ih

theorem Memory.lookup_insertCell_same (m : Memory) (n : Nat) (v : Word) (h : ∀ c ∈ m, c.1 ≠ n) :
    Memory.lookup (Memory.insertCell m n v) n = v := by
  induction m with
  | nil => simp [Memory.insertCell, Memory.lookup]
  | cons c m ih =>
    obtain ⟨j, w⟩ := c
    have hj : j ≠ n := h (j, w) (by simp)
    have ih := ih (fun c hc => h c (by simp [hc]))
    by_cases hlt : n < j <;> simp [Memory.insertCell, Memory.lookup, hlt, hj, ih]

theorem Memory.lookup_insertCell_ne (m : Memory) {n k : Nat} (v : Word) (h : k ≠ n) :
    Memory.lookup (Memory.insertCell m n v) k = Memory.lookup m k := by
  induction m with
  | nil => simp [Memory.insertCell, Memory.lookup, h.symm]
  | cons c m ih =>
    obtain ⟨j, w⟩ := c
    by_cases hlt : n < j <;> simp [Memory.insertCell, Memory.lookup, hlt, h.symm, ih]

/-! ### Read after write -/

theorem Memory.read_write_same (m : Memory) (addr v : Word) : Memory.read (Memory.write m addr v) addr = v := by
  unfold Memory.read Memory.write
  by_cases hv : v = Config.blankWord
  · simpa [hv] using Memory.lookup_filter_same m addr.toNat
  · simp only [hv, if_false]
    exact Memory.lookup_insertCell_same _ _ _ (by simp)

theorem Memory.read_write_ne (m : Memory) {addr other : Word} (v : Word) (h : other ≠ addr) :
    Memory.read (Memory.write m addr v) other = Memory.read m other := by
  have hn : other.toNat ≠ addr.toNat := fun e => h (BitVec.eq_of_toNat_eq e)
  unfold Memory.read Memory.write
  by_cases hv : v = Config.blankWord
  · simpa [hv] using Memory.lookup_filter_ne m hn
  · simp only [hv, if_false]
    rw [Memory.lookup_insertCell_ne _ _ hn, Memory.lookup_filter_ne m hn]

@[simp] theorem State.read_store_same (s : State) (addr v : Word) : (s.store addr v).read addr = v :=
  Memory.read_write_same _ _ _

theorem State.read_store_ne (s : State) {addr other : Word} (v : Word) (h : other ≠ addr) :
    (s.store addr v).read other = s.read other :=
  Memory.read_write_ne _ _ h

theorem State.read_store (s : State) (addr v other : Word) :
    (s.store addr v).read other = if other = addr then v else s.read other := by
  by_cases h : other = addr
  · subst h; simp
  · simp [h, State.read_store_ne]

/-! ### The canonical form -/

theorem Memory.mem_insertCell {m : Memory} {n : Nat} {v : Word} {c : Nat × Word} :
    c ∈ Memory.insertCell m n v ↔ c = (n, v) ∨ c ∈ m := by
  induction m with
  | nil => simp [Memory.insertCell]
  | cons d m ih =>
    obtain ⟨j, w⟩ := d
    by_cases hlt : n < j
    · simp [Memory.insertCell, hlt]
    · simp only [Memory.insertCell, hlt, if_false, List.mem_cons, ih]
      tauto

theorem Memory.insertCell_sorted {m : Memory} {n : Nat} {v : Word} (hs : (m.map Prod.fst).Pairwise (· < ·))
    (hn : ∀ c ∈ m, c.1 ≠ n) : ((Memory.insertCell m n v).map Prod.fst).Pairwise (· < ·) := by
  induction m with
  | nil => simp [Memory.insertCell]
  | cons d m ih =>
    obtain ⟨j, w⟩ := d
    have hj : j ≠ n := hn (j, w) (by simp)
    rw [List.map_cons, List.pairwise_cons] at hs
    by_cases hlt : n < j
    · simp only [Memory.insertCell, hlt, if_true, List.map_cons, List.pairwise_cons]
      refine ⟨fun x hx => ?_, hs⟩
      rcases List.mem_cons.mp hx with rfl | hx
      · exact hlt
      · exact lt_trans hlt (hs.1 x hx)
    · simp only [Memory.insertCell, hlt, if_false, List.map_cons, List.pairwise_cons]
      refine ⟨fun x hx => ?_, ih hs.2 (fun c hc => hn c (by simp [hc]))⟩
      obtain ⟨c, hc, rfl⟩ := List.mem_map.mp hx
      rcases Memory.mem_insertCell.mp hc with rfl | hc
      · exact lt_of_le_of_ne (not_lt.mp hlt) hj
      · exact hs.1 _ (List.mem_map_of_mem hc)

theorem Memory.filter_wf {m : Memory} (h : Memory.wf m) (p : Nat × Word → Bool) : Memory.wf (m.filter p) :=
  ⟨h.1.sublist (List.Sublist.map _ List.filter_sublist), fun c hc => h.2 c (List.mem_of_mem_filter hc)⟩

theorem Memory.write_wf {m : Memory} (h : Memory.wf m) (addr v : Word) : Memory.wf (Memory.write m addr v) := by
  have hf := Memory.filter_wf h (fun c => c.1 ≠ addr.toNat)
  unfold Memory.write
  by_cases hv : v = Config.blankWord
  · simpa [hv] using hf
  · simp only [hv, if_false]
    refine ⟨Memory.insertCell_sorted hf.1 (by simp), fun c hc => ?_⟩
    rcases Memory.mem_insertCell.mp hc with rfl | hc
    · exact ⟨addr.isLt, hv⟩
    · exact hf.2 c hc

theorem Memory.nil_wf : Memory.wf [] := by decide

theorem Memory.load_wf {m : Memory} (h : Memory.wf m) (addr : Word) (ws : List Word) :
    Memory.wf (Memory.load m addr ws) := by
  induction ws generalizing m addr with
  | nil => exact h
  | cons w ws ih => exact ih (Memory.write_wf h addr w) (addr + 1)

/-! ### A listed word and the word read there -/

theorem Memory.lookup_of_mem {m : Memory} (h : Memory.wf m) {c : Nat × Word} (hc : c ∈ m) :
    Memory.lookup m c.1 = c.2 := by
  induction m with
  | nil => simp at hc
  | cons d m ih =>
    obtain ⟨hs, hv⟩ := h
    rw [List.map_cons, List.pairwise_cons] at hs
    rcases List.mem_cons.mp hc with rfl | hc
    · simp [Memory.lookup]
    · have hne : d.1 ≠ c.1 := ne_of_lt (hs.1 _ (List.mem_map_of_mem hc))
      simp only [Memory.lookup, hne, if_false]
      exact ih ⟨hs.2, fun x hx => hv x (by simp [hx])⟩ hc

theorem Memory.mem_of_lookup {m : Memory} {n : Nat} (h : Memory.lookup m n ≠ Config.blankWord) :
    (n, Memory.lookup m n) ∈ m := by
  induction m with
  | nil => exact absurd rfl h
  | cons d m ih =>
    obtain ⟨j, w⟩ := d
    by_cases hj : j = n
    · subst hj; simp [Memory.lookup]
    · simp only [Memory.lookup, hj, if_false] at h ⊢
      exact List.mem_cons_of_mem _ (ih h)

end Sys2Proof.Machine
end

