-- ==== Sys2Proof/Laws/Operands.lean ====
section
/-! SUPPORT. What the operand evaluators and the write of a location can do, said once. -/

namespace Sys2Proof.Machine

/-! ### The evaluators move pc and sp only (rules R83, R84) -/

/-- All that evaluating a source operand does to the state. -/
theorem evalB_snd (b : Src) (s : State) :
    (evalB b s).2 = (s.setPc (s.pc + BitVec.ofNat 16 b.nextWords)).setSp (s.sp + srcSpMove b) := by
  cases b <;> simp [evalB, fetch, pop, Src.nextWords, srcSpMove, State.setPc, State.setSp]

/-- All that evaluating a destination operand does to the state. -/
theorem evalA_snd (a : Dst) (s : State) :
    (evalA a s).2 = (s.setPc (s.pc + BitVec.ofNat 16 a.nextWords)).setSp (s.sp + dstSpMove a) := by
  cases a <;> simp [evalA, fetch, Dst.nextWords, dstSpMove, State.setPc, State.setSp]
  · exact BitVec.sub_eq_add_neg _ _

/-- All that evaluating both operands of a basic instruction does to the state. -/
theorem evalBoth_snd (a : Dst) (b : Src) (s : State) :
    (evalA a (evalB b s).2).2 = (s.setPc (s.pc + BitVec.ofNat 16 (b.nextWords + a.nextWords))).setSp
      (s.sp + srcSpMove b + dstSpMove a) := by
  rw [evalA_snd, evalB_snd]
  simp [State.setPc, State.setSp, BitVec.ofNat_add, BitVec.add_assoc]

/-! ### Writing a location (rule R86) -/

/-- A written location holds what was written. -/
theorem writeLoc_holds (l : Loc) (v : Word) (s : State) : Holds l v (writeLoc l v s) := by
  cases l <;> simp [Holds, writeLoc]

theorem writeLoc_reg (l : Loc) (v : Word) (s : State) (r : Reg) (h : l ≠ .reg r) :
    (writeLoc l v s).reg r = s.reg r := by
  cases l with
  | reg q => exact State.reg_setReg_ne _ _ (fun e => h (by rw [e]))
  | _ => rfl

theorem writeLoc_read (l : Loc) (v : Word) (s : State) (addr : Word) (h : l ≠ .mem addr) :
    (writeLoc l v s).read addr = s.read addr := by
  cases l with
  | mem x => exact State.read_store_ne _ _ (fun e => h (by rw [e]))
  | _ => rfl

theorem writeLoc_sp (l : Loc) (v : Word) (s : State) (h : l ≠ .sp) : (writeLoc l v s).sp = s.sp := by
  cases l <;> first | rfl | exact absurd rfl h

theorem writeLoc_pc (l : Loc) (v : Word) (s : State) (h : l ≠ .pc) : (writeLoc l v s).pc = s.pc := by
  cases l <;> first | rfl | exact absurd rfl h

theorem writeLoc_ex (l : Loc) (v : Word) (s : State) (h : l ≠ .ex) : (writeLoc l v s).ex = s.ex := by
  cases l <;> first | rfl | exact absurd rfl h

@[simp] theorem writeLoc_cr (l : Loc) (v : Word) (s : State) : (writeLoc l v s).cr = s.cr := by cases l <;> rfl
@[simp] theorem writeLoc_extIrq (l : Loc) (v : Word) (s : State) : (writeLoc l v s).extIrq = s.extIrq := by cases l <;> rfl
@[simp] theorem writeLoc_config (l : Loc) (v : Word) (s : State) : (writeLoc l v s).config = s.config := by cases l <;> rfl
@[simp] theorem writeLoc_cycles (l : Loc) (v : Word) (s : State) : (writeLoc l v s).cycles = s.cycles := by cases l <;> rfl

theorem writeLoc_wf (l : Loc) (v : Word) (s : State) (h : RamCanonical s) : RamCanonical (writeLoc l v s) := by
  cases l with
  | mem x => exact Memory.write_wf h x v
  | _ => exact h

/-- The frame of a write made after both operands of a basic instruction were evaluated. -/
theorem writeLoc_frame (a : Dst) (b : Src) (v : Word) (s : State) :
    BasicFrame a b (dstLoc a b s) s (writeLoc (dstLoc a b s) v (evalA a (evalB b s).2).2) := by
  refine ⟨fun r h => ?_, fun x h => ?_, ⟨?_, ?_, ?_⟩, fun h => ?_, fun h => ?_⟩
  · rw [writeLoc_reg _ _ _ _ h, evalBoth_snd]; rfl
  · rw [writeLoc_read _ _ _ _ h, evalBoth_snd]; rfl
  · rw [writeLoc_cr, evalBoth_snd]; rfl
  · rw [writeLoc_extIrq, evalBoth_snd]; rfl
  · rw [writeLoc_config, evalBoth_snd]; rfl
  · rw [writeLoc_sp _ _ _ h, evalBoth_snd]; rfl
  · rw [writeLoc_pc _ _ _ h, evalBoth_snd]; rfl

end Sys2Proof.Machine
end

