-- ==== Sys2Proof/Laws/Interrupt.lean ====
section
/-! SUPPORT. Interrupt entry (rule R184), said once: its three outcomes, and what no outcome changes. -/

namespace Sys2Proof.Machine

/-- IF = 0: the interrupt leaves no trace but the cycles a masked interrupt costs. -/
theorem interrupt_masked {n arg : Word} {s : State} (h : s.ifFlag = false) :
    interrupt n arg s = s.charge s.config.specialCost.masked := if_pos h

/-- IF = 1 and the handler word 0xFFFF: IF is cleared and nothing else happens. -/
theorem interrupt_noHandler {n arg : Word} {s : State} (h : s.ifFlag = true) (hh : s.read s.config.ivec = noHandler) :
    interrupt n arg s = (s.setCr (s.cr &&& 0xfffe#16)).charge s.config.specialCost.noHandler := by
  unfold interrupt
  rw [if_neg (by simp [h])]
  exact if_pos hh

/-- IF = 1 and any other handler word: PC, the argument and the number are pushed and the handler is called. -/
theorem interrupt_taken {n arg : Word} {s : State} (h : s.ifFlag = true) (hh : s.read s.config.ivec ≠ noHandler) :
    interrupt n arg s = (((((s.setCr (s.cr &&& 0xfffe#16)).push s.pc).push arg).push n).setPc
      (s.read s.config.ivec)).charge s.config.specialCost.entry := by
  unfold interrupt
  rw [if_neg (by simp [h])]
  exact if_neg hh

/-- The outcomes of interrupt entry, one lemma for proofs by cases. -/
theorem interrupt_cases (n arg : Word) (s : State) :
    (s.ifFlag = false ∧ interrupt n arg s = s.charge s.config.specialCost.masked) ∨
    (s.ifFlag = true ∧ s.read s.config.ivec = noHandler ∧
      interrupt n arg s = (s.setCr (s.cr &&& 0xfffe#16)).charge s.config.specialCost.noHandler) ∨
    (s.ifFlag = true ∧ s.read s.config.ivec ≠ noHandler ∧
      interrupt n arg s = (((((s.setCr (s.cr &&& 0xfffe#16)).push s.pc).push arg).push n).setPc
        (s.read s.config.ivec)).charge s.config.specialCost.entry) := by
  cases h : s.ifFlag with
  | false => exact .inl ⟨rfl, interrupt_masked h⟩
  | true =>
    by_cases hh : s.read s.config.ivec = noHandler
    · exact .inr (.inl ⟨rfl, hh, interrupt_noHandler h hh⟩)
    · exact .inr (.inr ⟨rfl, hh, interrupt_taken h hh⟩)

/-! ### The stack frame -/

/-- Clearing bit 0 of a word rounds it down to an even one. -/
theorem clearBit0_toNat (v : Word) : (v &&& 0xfffe#16).toNat = v.toNat / 2 * 2 := by
  have h : v &&& 0xfffe#16 = (v >>> 1) <<< 1 := by
    ext i hi
    have hm : ∀ j : Fin 16, (0xfffe#16).getLsbD j.val = decide (j.val ≠ 0) := by decide
    have := hm ⟨i, hi⟩
    rcases i with _ | i
    · simp
    · simp [← BitVec.getLsbD_eq_getElem] at this ⊢
      simpa [this, Nat.add_comm] using fun _ => hi
  have := v.isLt
  rw [h]
  simp [Nat.shiftRight_eq_div_pow, Nat.shiftLeft_eq]
  omega

/-- Clearing IF where it is 1 takes 1 from CR. -/
theorem clearBit0_of_set {v : Word} (h : v.getLsbD 0 = true) : v &&& 0xfffe#16 = v - 1#16 := by
  have h1 : v.toNat % 2 = 1 := by
    have ht : v.toNat.testBit 0 = true := h
    simpa [Nat.testBit_zero] using ht
  apply BitVec.eq_of_toNat_eq
  have := v.isLt
  rw [clearBit0_toNat, BitVec.toNat_sub]
  simp
  omega

/-- Three pushes: where SP ends, what the three words are, and that every other word reads as before. -/
theorem push3 (s : State) (p q r : Word) :
    (((s.push p).push q).push r).sp = s.sp - 3#16 ∧
    (((s.push p).push q).push r).read (s.sp - 3#16) = r ∧
    (((s.push p).push q).push r).read (s.sp - 2#16) = q ∧
    (((s.push p).push q).push r).read (s.sp - 1#16) = p ∧
    ∀ addr, addr ≠ s.sp - 1#16 → addr ≠ s.sp - 2#16 → addr ≠ s.sp - 3#16 →
      (((s.push p).push q).push r).read addr = s.read addr := by
  have e2 : s.sp - 1#16 - 1#16 = s.sp - 2#16 := by bv_omega
  have e3 : s.sp - 2#16 - 1#16 = s.sp - 3#16 := by bv_omega
  have n1 : s.sp - 2#16 ≠ s.sp - 3#16 := by bv_omega
  have n2 : s.sp - 1#16 ≠ s.sp - 3#16 := by bv_omega
  have n3 : s.sp - 1#16 ≠ s.sp - 2#16 := by bv_omega
  refine ⟨by simp [State.push, e2, e3], ?_, ?_, ?_, fun addr h1 h2 h3 => ?_⟩ <;>
    simp [State.push, State.read_store, *]

/-! ### What no outcome changes -/

@[simp] theorem interrupt_regs (n arg : Word) (s : State) : (interrupt n arg s).regs = s.regs := by
  obtain ⟨-, e⟩ | ⟨-, -, e⟩ | ⟨-, -, e⟩ := interrupt_cases n arg s <;> rw [e] <;> rfl
@[simp] theorem interrupt_ex (n arg : Word) (s : State) : (interrupt n arg s).ex = s.ex := by
  obtain ⟨-, e⟩ | ⟨-, -, e⟩ | ⟨-, -, e⟩ := interrupt_cases n arg s <;> rw [e] <;> rfl
@[simp] theorem interrupt_extIrq (n arg : Word) (s : State) : (interrupt n arg s).extIrq = s.extIrq := by
  obtain ⟨-, e⟩ | ⟨-, -, e⟩ | ⟨-, -, e⟩ := interrupt_cases n arg s <;> rw [e] <;> rfl
@[simp] theorem interrupt_config (n arg : Word) (s : State) : (interrupt n arg s).config = s.config := by
  obtain ⟨-, e⟩ | ⟨-, -, e⟩ | ⟨-, -, e⟩ := interrupt_cases n arg s <;> rw [e] <;> rfl

theorem push_wf {s : State} (h : RamCanonical s) (v : Word) : RamCanonical (s.push v) := Memory.write_wf h _ _

theorem interrupt_wf {s : State} (h : RamCanonical s) (n arg : Word) : RamCanonical (interrupt n arg s) := by
  obtain ⟨-, e⟩ | ⟨-, -, e⟩ | ⟨-, -, e⟩ := interrupt_cases n arg s <;> rw [e]
  · exact h
  · exact h
  · have h3 := push_wf (push_wf (push_wf (s := s.setCr (s.cr &&& 0xfffe#16)) h s.pc) arg) n
    simpa only [RamCanonical, State.charge_mem, State.setPc_mem] using h3

/-! ### The instruction boundary -/

/-- What the boundary does, by what the schedule holds for it. -/
theorem boundary_cases (s : State) :
    (s.extIrq.event 0 = none ∧ boundary s = s.dropSlot) ∨
    (∃ q, s.extIrq.event 0 = some q ∧ boundary s = interrupt q.number q.argument s.dropSlot) := by
  unfold boundary
  cases s.extIrq.event 0 with
  | none => exact .inl ⟨rfl, rfl⟩
  | some q => exact .inr ⟨q, rfl, rfl⟩

theorem boundary_wf {s : State} (h : RamCanonical s) : RamCanonical (boundary s) := by
  obtain ⟨-, e⟩ | ⟨_, -, e⟩ := boundary_cases s <;> rw [e]
  · exact h
  · exact interrupt_wf (s := s.dropSlot) h _ _

/-- Whatever it delivers, a boundary uses up one slot. -/
@[simp] theorem boundary_extIrq (s : State) : (boundary s).extIrq = s.extIrq.rest := by
  obtain ⟨-, e⟩ | ⟨_, -, e⟩ := boundary_cases s <;> rw [e]
  · rfl
  · rw [interrupt_extIrq]; rfl

@[simp] theorem boundary_config (s : State) : (boundary s).config = s.config := by
  obtain ⟨-, e⟩ | ⟨_, -, e⟩ := boundary_cases s <;> rw [e]
  · rfl
  · rw [interrupt_config]; rfl

@[simp] theorem boundary_regs (s : State) : (boundary s).regs = s.regs := by
  obtain ⟨-, e⟩ | ⟨_, -, e⟩ := boundary_cases s <;> rw [e]
  · rfl
  · rw [interrupt_regs]; rfl

/-- An exhausted schedule stays exhausted. -/
theorem Schedule.Exhausted.rest {e : Schedule} (h : e.Exhausted) : e.rest.Exhausted := fun k => by
  rw [Schedule.event_rest]
  exact h (k + 1)

end Sys2Proof.Machine
end

