-- ==== Sys2Proof/Laws/PerInstr.lean ====
section
/-! SUPPORT. Statements about every instruction as syntax, one lemma per constructor. Family Length: the length of an
instruction, read from its first word alone (rule R55), is one word and the next words of its operands (rule R50). -/

namespace Sys2Proof.Laws.Length

/-- The first word of a well-formed instruction tells its length. -/
def Statement (i : Instr) : Prop := i.wf = true → len (encode i) = 1 + i.nextWords

theorem set (a : Dst) (b : Src) : Statement (.set a b) := fun h => len_basicWord (by decide) a h
theorem add (a : Dst) (b : Src) : Statement (.add a b) := fun h => len_basicWord (by decide) a h
theorem sub (a : Dst) (b : Src) : Statement (.sub a b) := fun h => len_basicWord (by decide) a h
theorem mul (a : Dst) (b : Src) : Statement (.mul a b) := fun h => len_basicWord (by decide) a h
theorem mli (a : Dst) (b : Src) : Statement (.mli a b) := fun h => len_basicWord (by decide) a h
theorem div (a : Dst) (b : Src) : Statement (.div a b) := fun h => len_basicWord (by decide) a h
theorem dvi (a : Dst) (b : Src) : Statement (.dvi a b) := fun h => len_basicWord (by decide) a h
theorem mod (a : Dst) (b : Src) : Statement (.mod a b) := fun h => len_basicWord (by decide) a h
theorem and (a : Dst) (b : Src) : Statement (.and a b) := fun h => len_basicWord (by decide) a h
theorem bor (a : Dst) (b : Src) : Statement (.bor a b) := fun h => len_basicWord (by decide) a h
theorem xor (a : Dst) (b : Src) : Statement (.xor a b) := fun h => len_basicWord (by decide) a h
theorem shr (a : Dst) (b : Src) : Statement (.shr a b) := fun h => len_basicWord (by decide) a h
theorem asr (a : Dst) (b : Src) : Statement (.asr a b) := fun h => len_basicWord (by decide) a h
theorem shl (a : Dst) (b : Src) : Statement (.shl a b) := fun h => len_basicWord (by decide) a h
theorem ifb (a : Dst) (b : Src) : Statement (.ifb a b) := fun h => len_basicWord (by decide) a h
theorem ife (a : Dst) (b : Src) : Statement (.ife a b) := fun h => len_basicWord (by decide) a h
theorem ifn (a : Dst) (b : Src) : Statement (.ifn a b) := fun h => len_basicWord (by decide) a h
theorem ifg (a : Dst) (b : Src) : Statement (.ifg a b) := fun h => len_basicWord (by decide) a h
theorem ifa (a : Dst) (b : Src) : Statement (.ifa a b) := fun h => len_basicWord (by decide) a h
theorem ifl (a : Dst) (b : Src) : Statement (.ifl a b) := fun h => len_basicWord (by decide) a h
theorem ifu (a : Dst) (b : Src) : Statement (.ifu a b) := fun h => len_basicWord (by decide) a h
theorem jsr (a : Dst) : Statement (.jsr a) := fun _ => len_specialWord _ a
theorem int (a : Dst) : Statement (.int a) := fun _ => len_specialWord _ a
theorem cli : Statement .cli := fun _ => rfl
theorem sti : Statement .sti := fun _ => rfl
theorem lcr (a : Dst) : Statement (.lcr a) := fun _ => len_specialWord _ a
theorem scr (a : Dst) : Statement (.scr a) := fun _ => len_specialWord _ a

end Sys2Proof.Laws.Length
end

