-- ==== Sys2Proof/Laws/Template.lean ====
section
/-! SUPPORT. What the shared shapes of the basic instructions can do, said once: they always answer a next state, and that
state is characterised field by field. -/

namespace Sys2Proof.Machine

/-- An instruction that writes its destination from its operands and leaves EX alone. -/
theorem alu_next (base : Nat) (f : Word → Word → Word) (a : Dst) (b : Src) (s : State) :
    ∃ t, alu base f a b s = .next t ∧
      Holds (dstLoc a b s) (f (dstValue a b s) (srcValue b s)) t ∧
      BasicFrame a b (dstLoc a b s) s t ∧
      (dstLoc a b s ≠ .ex → t.ex = s.ex) ∧
      t.cycles = s.cycles + (base + dstCost a + srcCost b) := by
  refine ⟨_, rfl, ?_, ?_, ?_, ?_⟩
  · generalize h : dstLoc a b s = l
    cases l <;> (rw [dstLoc] at h; simp [Holds, h, dstValue, srcValue, dstLoc, writeLoc])
  · exact writeLoc_frame a b _ s
  · intro h
    rw [State.charge_ex, ← dstLoc, writeLoc_ex _ _ _ h, evalBoth_snd]; rfl
  · rw [State.charge_cycles, writeLoc_cycles, evalBoth_snd]; rfl

/-- An instruction that also writes EX: where the destination is EX, the side effect is what stays there. -/
theorem aluEx_next (base : Nat) (f g : Word → Word → Word) (a : Dst) (b : Src) (s : State) :
    ∃ t, aluEx base f g a b s = .next t ∧
      HoldsUnlessEx (dstLoc a b s) (f (dstValue a b s) (srcValue b s)) t ∧
      BasicFrame a b (dstLoc a b s) s t ∧
      t.ex = g (dstValue a b s) (srcValue b s) ∧
      t.cycles = s.cycles + (base + dstCost a + srcCost b) := by
  refine ⟨_, rfl, ?_, ?_, rfl, ?_⟩
  · intro hex
    generalize h : dstLoc a b s = l at hex
    cases l <;> first
      | exact absurd rfl hex
      | (rw [dstLoc] at h; simp [Holds, h, dstValue, srcValue, dstLoc, writeLoc])
  · exact writeLoc_frame a b _ s
  · rw [State.charge_cycles, State.setEx_cycles, writeLoc_cycles, evalBoth_snd]; rfl

/-- A conditional whose test holds only evaluates its operands. -/
theorem conditional_holds {test : Word → Word → Bool} {a : Dst} {b : Src} {s : State}
    (h : test (dstValue a b s) (srcValue b s) = true) :
    conditional test a b s = .next ((evalA a (evalB b s).2).2.charge (2 + dstCost a + srcCost b)) :=
  if_pos h

/-- A conditional whose test fails also passes over the next instruction. -/
theorem conditional_fails {test : Word → Word → Bool} {a : Dst} {b : Src} {s : State}
    (h : test (dstValue a b s) (srcValue b s) = false) :
    conditional test a b s = .next ((skipNext (evalA a (evalB b s).2).2).charge (3 + dstCost a + srcCost b)) := by
  refine if_neg ?_
  show ¬(test (dstValue a b s) (srcValue b s) = true)
  simp [h]

end Sys2Proof.Machine
end

