-- ==== Sys2Proof/Tests/Slice0.lean ====
section
/-! SUPPORT. The model's own tests: ill-formed terms refused, words decoded, one step per test with the outcome
95_test_vectors.md gives, and for every statement with hypotheses a witness that meets them. -/

open Sys2Proof Sys2Proof.Machine

namespace Sys2Proof.Tests

/-! ### Small states -/

/-- The start of a vector of 95_test_vectors.md part 2: reset, with the words of an instruction at 0x0100. -/
def start (words : List Word) : State :=
  { State.reset with mem := Memory.load [] 0x0100#16 words, pc := 0x0100#16 }

/-- A vector of the register form: words, A, B, EX. -/
def regs3 (words : List Word) (a b ex : Word) : State := (((start words).setReg .a a).setReg .b b).setEx ex

/-- What a test looks at after a step: `f` of the next state, none where the step stops. -/
def after {α : Type} (o : Result) (f : State → α) : Option α :=
  match o with
  | .next t => some (f t)
  | .fault _ => none
  | .refused _ => none

/-- A, EX and pc. -/
def aExPc (t : State) : Word × Word × Word := (t.reg .a, t.ex, t.pc)

/-! ### WellFormed: the one check, refused and accepted at its bounds -/

theorem test_wf_refuses_short_31 : (Instr.set (.reg .a) (.short 31#16)).wf = false := by decide
theorem test_wf_refuses_short_fffe : (Instr.ifu .push (.short 0xfffe#16)).wf = false := by decide
theorem test_wf_bounds :
    (Instr.set .lit (.short 30#16)).wf = true ∧ (Instr.set .lit (.short 0xffff#16)).wf = true ∧
    (Instr.set .lit (.short 0#16)).wf = true := by decide

/-! ### Decode: one word per constructor, its bits written out from the formats of R52 and R53 -/

theorem test_decode_arithmetic :
    decode 0b101011_11000_00001#16 = .ok (.set .push (.short 10#16)) ∧
    decode 0b000001_00000_00010#16 = .ok (.add (.reg .a) (.reg .b)) ∧
    decode 0b010011_01010_00011#16 = .ok (.sub (.ind .c) (.idx .x)) ∧
    decode 0b001101_10100_00100#16 = .ok (.mul (.idx .y) (.ind .z)) ∧
    decode 0b011000_11001_00101#16 = .ok (.mli .peek .pop) ∧
    decode 0b011010_11010_00110#16 = .ok (.div .pick .pick) ∧
    decode 0b011100_11011_00111#16 = .ok (.dvi .sp .pc) ∧
    decode 0b011110_11101_01000#16 = .ok (.mod .ex .mem) :=
  ⟨rfl, rfl, rfl, rfl, rfl, rfl, rfl, rfl⟩

theorem test_decode_logic :
    decode 0b011111_11110_01001#16 = .ok (.and .mem .lit) ∧
    decode 0b100000_11111_01010#16 = .ok (.bor .lit (.short 0xffff#16)) ∧
    decode 0b100001_00110_01011#16 = .ok (.xor (.reg .i) (.short 0#16)) ∧
    decode 0b111111_00111_01100#16 = .ok (.shr (.reg .j) (.short 30#16)) ∧
    decode 0b011011_00011_01101#16 = .ok (.asr (.reg .x) .sp) ∧
    decode 0b011101_11100_01110#16 = .ok (.shl .pc .ex) :=
  ⟨rfl, rfl, rfl, rfl, rfl, rfl⟩

theorem test_decode_conditional :
    decode 0b010000_01111_10001#16 = .ok (.ifb (.ind .j) (.idx .a)) ∧
    decode 0b011001_00001_10010#16 = .ok (.ife (.reg .b) .peek) ∧
    decode 0b000100_10111_10011#16 = .ok (.ifn (.idx .j) (.reg .y)) ∧
    decode 0b001000_00010_10100#16 = .ok (.ifg (.reg .c) (.ind .a)) ∧
    decode 0b000110_00101_10101#16 = .ok (.ifa (.reg .z) (.reg .i)) ∧
    decode 0b010111_01000_10110#16 = .ok (.ifl (.ind .a) (.idx .j)) ∧
    decode 0b100010_11101_10111#16 = .ok (.ifu .ex (.short 1#16)) :=
  ⟨rfl, rfl, rfl, rfl, rfl, rfl, rfl⟩

theorem test_decode_special :
    decode 0b11111_0000001_0000#16 = .ok (.jsr .lit) ∧
    decode 0b11001_0000010_0000#16 = .ok (.int .peek) ∧
    decode 0b00000_0000011_0000#16 = .ok .cli ∧
    decode 0b00000_0000100_0000#16 = .ok .sti ∧
    decode 0b11000_0000101_0000#16 = .ok (.lcr .push) ∧
    decode 0b10001_0000110_0000#16 = .ok (.scr (.idx .b)) :=
  ⟨rfl, rfl, rfl, rfl, rfl, rfl⟩

/-- The words of vector table 2.13 are reserved, each in its class. -/
theorem test_reserved_words :
    decode 0x0000#16 = .error .specialZero ∧ decode 0xf800#16 = .error .specialZero ∧
    decode 0x0070#16 = .error .specialReserved ∧ decode 0x07f0#16 = .error .specialReserved ∧
    decode 0x0830#16 = .error .operandOnCliSti ∧ decode 0x0840#16 = .error .operandOnCliSti ∧
    decode 0x040f#16 = .error .unassignedBasic ∧ decode 0x0418#16 = .error .unassignedBasic ∧
    decode 0x041f#16 = .error .unassignedBasic := ⟨rfl, rfl, rfl, rfl, rfl, rfl, rfl, rfl, rfl⟩

/-- Vector table 2.14. -/
theorem test_len :
    [0x0401#16, 0x7c01#16, 0x7fc1#16, 0x6801#16, 0x8341#16, 0x4601#16, 0xaf01#16, 0xf810#16, 0x0010#16, 0x0040#16, 0x0000#16,
      0xf800#16].map len = [1, 2, 3, 2, 2, 3, 1, 2, 1, 1, 1, 2] := by decide

/-- The two questions of the host, evaluated: opcode-table rows SET, JSR with a literal, and a reserved word. -/
theorem test_decodeTableWord :
    decodeTableWord 16 0x0401 = some (.set (.reg .a) (.reg .b)) ∧ decodeTableWord 16 0xf810 = some (.jsr .lit) ∧
    decodeTableWord 16 0 = none := ⟨rfl, rfl, rfl⟩
theorem test_withFetchWord :
    after (step (State.reset.withFetchWord 16 0x7c01)) aExPc = some (0x0000#16, 0x0000#16, 0x0002#16) ∧
    after (step (((State.reset.setReg .a 5#16).setReg .b 3#16).withFetchWord 16 0x0403)) aExPc =
      some (0x0002#16, 0x0000#16, 0x0001#16) := by decide

/-! ### Arithmetic and logic (vector tables 2.2 to 2.6: A, EX and pc after) -/

theorem test_set_short_minus_one : after (step (regs3 [0x8001#16] 0x0000#16 0x0000#16 0x5555#16)) aExPc =
    some (0xffff#16, 0x5555#16, 0x0101#16) := by decide
theorem test_add_carry : after (step (regs3 [0x0402#16] 0x5678#16 0xccdd#16 0x0000#16)) aExPc =
    some (0x2355#16, 0x0001#16, 0x0101#16) := by decide
theorem test_add_signed_overflow_is_none : after (step (regs3 [0x0402#16] 0x7fff#16 0x0001#16 0xffff#16)) aExPc =
    some (0x8000#16, 0x0000#16, 0x0101#16) := by decide
theorem test_sub_borrow : after (step (regs3 [0x0403#16] 0x0000#16 0x0001#16 0x0000#16)) aExPc =
    some (0xffff#16, 0xffff#16, 0x0101#16) := by decide
theorem test_sub_no_borrow : after (step (regs3 [0x0403#16] 0x0030#16 0x0020#16 0x0009#16)) aExPc =
    some (0x0010#16, 0x0000#16, 0x0101#16) := by decide
theorem test_mul_high : after (step (regs3 [0x0404#16] 0xffff#16 0xffff#16 0x0000#16)) aExPc =
    some (0x0001#16, 0xfffe#16, 0x0101#16) := by decide
theorem test_mli_negative : after (step (regs3 [0x0405#16] 0xfffe#16 0x0003#16 0x0000#16)) aExPc =
    some (0xfffa#16, 0xffff#16, 0x0101#16) := by decide
theorem test_mli_corner : after (step (regs3 [0x0405#16] 0x8000#16 0x7fff#16 0x0000#16)) aExPc =
    some (0x8000#16, 0xc000#16, 0x0101#16) := by decide
theorem test_div_fraction : after (step (regs3 [0x0406#16] 0x0001#16 0x0003#16 0x0000#16)) aExPc =
    some (0x0000#16, 0x5555#16, 0x0101#16) := by decide
theorem test_div_by_zero : after (step (regs3 [0x0406#16] 0x1234#16 0x0000#16 0x0005#16)) aExPc =
    some (0x0000#16, 0x0000#16, 0x0101#16) := by decide
theorem test_dvi_toward_zero : after (step (regs3 [0x0407#16] 0xfff9#16 0x0002#16 0x0000#16)) aExPc =
    some (0xfffd#16, 0x8000#16, 0x0101#16) := by decide
theorem test_dvi_wraps : after (step (regs3 [0x0407#16] 0x8000#16 0xffff#16 0x0000#16)) aExPc =
    some (0x8000#16, 0x0000#16, 0x0101#16) := by decide
theorem test_mod_unsigned : after (step (regs3 [0x0408#16] 0xffff#16 0x0010#16 0xabcd#16)) aExPc =
    some (0x000f#16, 0xabcd#16, 0x0101#16) := by decide
theorem test_mod_by_zero : after (step (regs3 [0x0408#16] 0x1234#16 0x0000#16 0xabcd#16)) aExPc =
    some (0x0000#16, 0xabcd#16, 0x0101#16) := by decide
theorem test_and : after (step (regs3 [0x0409#16] 0xf0f0#16 0x0ff0#16 0x0003#16)) aExPc =
    some (0x00f0#16, 0x0003#16, 0x0101#16) := by decide
theorem test_bor : after (step (regs3 [0x040a#16] 0xf000#16 0x000f#16 0x0003#16)) aExPc =
    some (0xf00f#16, 0x0003#16, 0x0101#16) := by decide
theorem test_xor : after (step (regs3 [0x040b#16] 0xff00#16 0x0ff0#16 0x0003#16)) aExPc =
    some (0xf0f0#16, 0x0003#16, 0x0101#16) := by decide
theorem test_shr_one : after (step (regs3 [0x040c#16] 0x8003#16 0x0001#16 0x0000#16)) aExPc =
    some (0x4001#16, 0x8000#16, 0x0101#16) := by decide
theorem test_shr_seventeen : after (step (regs3 [0x040c#16] 0x8003#16 0x0011#16 0x0000#16)) aExPc =
    some (0x0000#16, 0x4001#16, 0x0101#16) := by decide
theorem test_asr_sign : after (step (regs3 [0x040d#16] 0x8003#16 0x0010#16 0x0000#16)) aExPc =
    some (0xffff#16, 0x8003#16, 0x0101#16) := by decide
theorem test_asr_ffff : after (step (regs3 [0x040d#16] 0x8003#16 0xffff#16 0x0000#16)) aExPc =
    some (0xffff#16, 0x0000#16, 0x0101#16) := by decide
theorem test_shl_fifteen : after (step (regs3 [0x040e#16] 0x8003#16 0x000f#16 0x0000#16)) aExPc =
    some (0x8000#16, 0x4001#16, 0x0101#16) := by decide
theorem test_shl_seventeen : after (step (regs3 [0x040e#16] 0x8003#16 0x0011#16 0x0000#16)) aExPc =
    some (0x0000#16, 0x0006#16, 0x0101#16) := by decide

/-! ### Conditionals (vector table 2.9: pc after, the next instruction being three words long) -/

theorem test_ifb_holds :
    after (step (regs3 [0x9411#16, 0x7fc1#16, 0x0020#16, 0x1000#16] 0x0005#16 0x0000#16 0#16)) (fun t => (t.pc, t.cycles)) =
      some (0x0101#16, 2) := by decide
theorem test_ifb_fails :
    after (step (regs3 [0x8c11#16, 0x7fc1#16, 0x0020#16, 0x1000#16] 0x0005#16 0x0000#16 0#16)) (fun t => (t.pc, t.cycles)) =
      some (0x0104#16, 3) := by decide
theorem test_ife_holds :
    after (step (regs3 [0xc412#16, 0x7fc1#16, 0x0020#16, 0x1000#16] 0x0010#16 0x0000#16 0#16)) (fun t => (t.pc, t.cycles)) =
      some (0x0101#16, 2) := by decide
theorem test_ife_fails :
    after (step (regs3 [0xc812#16, 0x7fc1#16, 0x0020#16, 0x1000#16] 0x0010#16 0x0000#16 0#16)) (fun t => (t.pc, t.cycles)) =
      some (0x0104#16, 3) := by decide
theorem test_ifn_fails :
    after (step (regs3 [0xc413#16, 0x7fc1#16, 0x0020#16, 0x1000#16] 0x0010#16 0x0000#16 0#16)) (fun t => (t.pc, t.cycles)) =
      some (0x0104#16, 3) := by decide
theorem test_ifn_holds :
    after (step (regs3 [0x8413#16, 0x7fc1#16, 0x0020#16, 0x1000#16] 0x0009#16 0x0000#16 0#16)) (fun t => (t.pc, t.cycles)) =
      some (0x0101#16, 2) := by decide
theorem test_ifg_fails_signed :
    after (step (regs3 [0x0414#16, 0x7fc1#16, 0x0020#16, 0x1000#16] 0x8000#16 0x7fff#16 0#16)) (fun t => (t.pc, t.cycles)) =
      some (0x0104#16, 3) := by decide
theorem test_ifg_holds_signed :
    after (step (regs3 [0x8014#16, 0x7fc1#16, 0x0020#16, 0x1000#16] 0x0001#16 0x0000#16 0#16)) (fun t => (t.pc, t.cycles)) =
      some (0x0101#16, 2) := by decide
theorem test_ifa_holds_unsigned :
    after (step (regs3 [0x8415#16, 0x7fc1#16, 0x0020#16, 0x1000#16] 0xffff#16 0x0000#16 0#16)) (fun t => (t.pc, t.cycles)) =
      some (0x0101#16, 2) := by decide
theorem test_ifa_fails_unsigned :
    after (step (regs3 [0x8015#16, 0x7fc1#16, 0x0020#16, 0x1000#16] 0x0001#16 0x0000#16 0#16)) (fun t => (t.pc, t.cycles)) =
      some (0x0104#16, 3) := by decide
theorem test_ifl_holds_signed :
    after (step (regs3 [0x0416#16, 0x7fc1#16, 0x0020#16, 0x1000#16] 0x8000#16 0x7fff#16 0#16)) (fun t => (t.pc, t.cycles)) =
      some (0x0101#16, 2) := by decide
theorem test_ifl_fails_equal :
    after (step (regs3 [0x0016#16, 0x7fc1#16, 0x0020#16, 0x1000#16] 0x0003#16 0x0000#16 0#16)) (fun t => (t.pc, t.cycles)) =
      some (0x0104#16, 3) := by decide
theorem test_ifu_fails_unsigned :
    after (step (regs3 [0x8417#16, 0x7fc1#16, 0x0020#16, 0x1000#16] 0xffff#16 0x0000#16 0#16)) (fun t => (t.pc, t.cycles)) =
      some (0x0104#16, 3) := by decide
theorem test_ifu_holds :
    after (step (regs3 [0x8817#16, 0x7fc1#16, 0x0020#16, 0x1000#16] 0x0000#16 0x0000#16 0#16)) (fun t => (t.pc, t.cycles)) =
      some (0x0101#16, 2) := by decide

/-! ### Operand forms, literals and EX as destinations (vector tables 2.7, 2.8) -/

/-- Both operands take a next word, b's first: `SET [1+A], [2+B]`. -/
theorem test_set_two_indexed :
    after (step ((((start [0x4601#16, 0x0002#16, 0x0001#16]).setReg .a 0x2000#16).setReg .b 0x3000#16).store 0x3002#16
      0x4242#16)) (fun t => (t.read 0x2001#16, t.pc, t.cycles)) = some (0x4242#16, 0x0103#16, 3) := by decide
/-- PUSH as a read-modify-write operand, and POP before it: `ADD PEEK, POP`. -/
theorem test_pop_then_peek :
    after (step ((((start [0x6322#16]).setSp 0xfff0#16).store 0xfff0#16 3#16).store 0xfff1#16 4#16))
      (fun t => (t.sp, t.read 0xfff1#16, t.ex, t.cycles)) = some (0xfff1#16, 0x0007#16, 0x0000#16, 2) := by decide
theorem test_literal_destination :
    after (step ((start [0x8be2#16, 0xffff#16]).setEx 9#16)) (fun t => (t.ex, t.pc, t.mem)) =
      some (0x0001#16, 0x0102#16, (start [0x8be2#16, 0xffff#16]).mem) := by decide
theorem test_ex_destination :
    after (step ((start [0x7fa4#16, 0x0100#16]).setEx 0x1234#16)) (fun t => t.ex) = some 0x0012#16 := by decide

/-! ### Special instructions and interrupts (vector tables 2.10 to 2.13) -/

/-- The state of vector table 2.11: INT 5 at 0x0010, the handler word at 0xfffe. -/
def int5 (cr handler : Word) : State :=
  { State.reset with
    mem := Memory.load (Memory.write [] 0xfffe#16 handler) 0x0010#16 [0xf820#16, 0x0005#16]
    pc := 0x0010#16
    sp := 0xfffe#16
    cr := cr }

/-- One hardware interrupt, at the coming boundary. -/
def oneEvent (number argument : Word) : Schedule :=
  { slots := [some { number := number, argument := argument }], tail := .silent }

/-- An endless schedule: one empty slot, then the environment 3 from its boundary 7 on. -/
def endless : Schedule := { slots := [none], tail := .free 3 7 }

theorem test_jsr_peek :
    after (step (((start [0xc810#16]).setSp 0x8000#16).store 0x8000#16 0x0400#16))
      (fun t => (t.pc, t.sp, t.read 0x7fff#16, t.cycles)) = some (0x0400#16, 0x7fff#16, 0x0101#16, 2) := by decide
theorem test_int_taken :
    after (step (int5 1#16 0x0100#16))
      (fun t => (t.pc, t.sp, t.cr, t.read 0xfffd#16, t.read 0xfffc#16, t.read 0xfffb#16)) =
      some (0x0100#16, 0xfffb#16, 0x0000#16, 0x0012#16, 0x0000#16, 0x0005#16) := by decide
theorem test_int_no_handler :
    after (step (int5 1#16 0xffff#16)) (fun t => (t.pc, t.sp, t.cr, t.mem)) =
      some (0x0012#16, 0xfffe#16, 0x0000#16, (int5 1#16 0xffff#16).mem) := by decide
theorem test_cli : after (step ((start [0x0030#16]).setCr 0xffff#16)) (fun t => (t.cr, t.pc)) =
    some (0xfffe#16, 0x0101#16) := by decide
theorem test_sti : after (step ((start [0x0040#16]).setCr 0x8000#16)) (fun t => (t.cr, t.pc)) =
    some (0x8001#16, 0x0101#16) := by decide
theorem test_lcr_push :
    after (step (((start [0xc050#16]).setSp 0x8000#16).setCr 1#16)) (fun t => (t.sp, t.read 0x7fff#16, t.cr)) =
      some (0x7fff#16, 0x0001#16, 0x0001#16) := by decide
theorem test_scr_literal :
    after (step ((start [0xf860#16, 0xfffe#16]).setCr 1#16)) (fun t => (t.cr, t.pc)) =
      some (0xfffe#16, 0x0102#16) := by decide
/-- A hardware interrupt at a boundary with pc = 0x0006; the handler's first instruction, here STI, runs in the same step. -/
theorem test_hardware_interrupt :
    after (step { State.reset with
        mem := Memory.write (Memory.write [] 0xfffe#16 0x000d#16) 0x000d#16 0x0040#16
        pc := 0x0006#16
        sp := 0x8000#16
        cr := 0x0001#16
        extIrq := oneEvent 9#16 0xabcd#16 })
      (fun t => (t.pc, t.sp, t.cr, [t.read 0x7fff#16, t.read 0x7ffe#16, t.read 0x7ffd#16], t.extIrq)) =
      some (0x000e#16, 0x7ffd#16, 0x0001#16, [0x0006#16, 0xabcd#16, 0x0009#16], Schedule.empty) := by decide
theorem test_reserved_word_faults :
    step (start [0x040f#16]) = .fault (.illegal .unassignedBasic 0x040f#16 ((start [0x040f#16]).setPc 0x0101#16)) := by rfl

/-! ### The assembler: lines of doc00's sample program (95_test_vectors.md 1.4) -/

theorem test_assemble :
    assemble [.basic "SET" (.reg .a) (.lit (.num 0x30#16)), .basic "SET" (.mem (.num 0x1000#16)) (.lit (.num 0x20#16)),
      .special "JSR" (.lit (.label "testsub")), .bare "STI", .label "testsub", .basic "SHL" (.reg .x) (.lit (.num 4#16)),
      idiomReturn] =
    some [0x7c01#16, 0x0030#16, 0x7fc1#16, 0x0020#16, 0x1000#16, 0xf810#16, 0x0008#16, 0x0040#16, 0x946e#16, 0x6381#16] := by
  decide
theorem test_assemble_refuses :
    assemble [.basic "SET" .pop (.reg .a)] = none ∧ assemble [.basic "SET" (.reg .a) .push] = none ∧
    assemble [.special "JSR" (.lit (.label "nowhere"))] = none := by decide

/-! ### Memory -/

theorem test_write_keeps_form :
    Memory.write (Memory.write (Memory.write [] 5#16 1#16) 3#16 2#16) 5#16 0#16 = [(3, 2#16)] := by decide

/-! ### Witnesses: for every statement with hypotheses, concrete states and operands that meet them, clause by clause -/

/-- IF is 1 and the handler word at 0xfffe is 0x0100. -/
def enabled : State := int5 1#16 0x0100#16
/-- IF is 1 and the handler word is 0xffff. -/
def unhandled : State := int5 1#16 0xffff#16

theorem witness_DecodeOfEncode :
    (Instr.set (.reg .a) (.short 0xffff#16)).wf = true ∧ (Instr.ifu .lit (.short 30#16)).wf = true ∧
    (Instr.scr .push).wf = true := by decide
theorem witness_EncodeOfDecode :
    decode 0x0001#16 = .ok (.set (.reg .a) (.reg .a)) ∧ decode 0xfff7#16 = .ok (.ifu .lit (.short 30#16)) := ⟨rfl, rfl⟩
/-- The least and the greatest word of each class, and their neighbours, which are in none. -/
theorem witness_ReservedWordClasses :
    decode 0x000f#16 = .error .unassignedBasic ∧ decode 0x0018#16 = .error .unassignedBasic ∧
    decode 0xffff#16 = .error .unassignedBasic ∧ decode 0x0017#16 = .ok (.ifu (.reg .a) (.reg .a)) ∧
    decode 0x0000#16 = .error .specialZero ∧ decode 0xf800#16 = .error .specialZero ∧
    decode 0x0060#16 = .ok (.scr (.reg .a)) ∧ decode 0x0070#16 = .error .specialReserved ∧
    decode 0xfff0#16 = .error .specialReserved ∧
    decode 0x0830#16 = .error .operandOnCliSti ∧ decode 0xf840#16 = .error .operandOnCliSti ∧
    decode 0x0030#16 = .ok .cli := ⟨rfl, rfl, rfl, rfl, rfl, rfl, rfl, rfl, rfl, rfl, rfl, rfl⟩
theorem witness_LenOfFirstWord :
    (len 0x0001#16 = 1 ∧ decode 0x0001#16 = .ok (.set (.reg .a) (.reg .a))) ∧
    (len 0x7fe1#16 = 3 ∧ decode 0x7fe1#16 = .ok (.set .lit .lit)) := ⟨⟨rfl, rfl⟩, ⟨rfl, rfl⟩⟩
theorem witness_ThreeWordStore :
    Quiet (start [0x7fc1#16, 0x0020#16, 0x2000#16]) ∧ (start [0x7fc1#16, 0x0020#16, 0x2000#16]).read 0x0100#16 = 0x7fc1#16 ∧
    (start [0x7fc1#16, 0x0020#16, 0x2000#16]).read 0x0101#16 = 0x0020#16 ∧
    (start [0x7fc1#16, 0x0020#16, 0x2000#16]).read 0x0102#16 = 0x2000#16 := ⟨.inl rfl, by decide, by decide, by decide⟩
theorem witness_AssembledLineDecodes :
    (AsmLine.basic "SET" (.mem (.label "x")) (.lit (.num 0x20#16))).words [("x", 0x1000#16)] =
      some [0x7fc1#16, 0x0020#16, 0x1000#16] ∧
    (AsmLine.bare "STI").words [] = some [0x0040#16] := by decide
theorem witness_StepRunsDecodedInstruction :
    decode ((boundary (start [0x0402#16])).read (boundary (start [0x0402#16])).pc) = .ok (.add (.reg .a) (.reg .b)) := by rfl
theorem witness_ReservedWordFaultsAtOnce :
    decode ((boundary State.reset).read (boundary State.reset).pc) = .error .specialZero := by rfl
/-- EveryInstructionCompletes: each outcome of its second clause is met. -/
theorem witness_EveryInstructionCompletes :
    (∃ t, step (start [0x0402#16]) = .next t) ∧ (∃ f, step State.reset = .fault f) := ⟨⟨_, rfl⟩, ⟨_, rfl⟩⟩
theorem witness_PcPastInstructionUnlessWritten :
    decode ((boundary (start [0x7c01#16])).read (boundary (start [0x7c01#16])).pc) = .ok (.set (.reg .a) .lit) ∧
    ¬ WritesPc (.set (.reg .a) .lit) ((boundary (start [0x7c01#16])).setPc ((boundary (start [0x7c01#16])).pc + 1)) :=
  ⟨by rfl, by show ¬ dstLoc _ _ _ = Loc.pc; decide⟩
theorem witness_SourceOperandTable : 0x20 ≤ (0x20#6).toNat ∧ 0x20 ≤ (0x3f#6).toNat := by decide
theorem witness_LocationReadAfterWrite :
    (∀ x, Loc.mem 0xffff#16 ≠ .lit x) ∧ Loc.ex ≠ Loc.mem 0xffff#16 ∧ Loc.lit 7#16 = .lit 7#16 :=
  ⟨nofun, by decide, rfl⟩
/-- The statements whose clauses ask where the destination is: EX, and not EX. -/
theorem witness_destination_clauses :
    dstLoc (.reg .a) (.reg .b) State.reset ≠ .ex ∧ dstLoc .ex (.reg .b) State.reset = .ex ∧
    dstLoc .lit .pop State.reset ≠ .ex := by decide
/-- The statements whose clauses ask for the divisor: 0, 1 and 0xffff. -/
theorem witness_divisor_clauses :
    srcValue (.short 0#16) State.reset = 0 ∧ srcValue (.short 1#16) State.reset ≠ 0 ∧
    srcValue (.short 0xffff#16) State.reset ≠ 0 := by decide
/-- For each conditional, operands on which it performs the next instruction and, next to them, operands on which it does
not. -/
theorem witness_ConditionalTests :
    (testIfb 4#16 4#16 = true ∧ testIfb 4#16 3#16 = false) ∧ (testIfe 4#16 4#16 = true ∧ testIfe 4#16 5#16 = false) ∧
    (testIfn 4#16 5#16 = true ∧ testIfn 4#16 4#16 = false) ∧ (testIfg 0#16 0xffff#16 = true ∧ testIfg 0#16 0#16 = false) ∧
    (testIfa 0x8000#16 0x7fff#16 = true ∧ testIfa 0x8000#16 0x8000#16 = false) ∧
    (testIfl 0x8000#16 0x7fff#16 = true ∧ testIfl 0x8000#16 0x8000#16 = false) ∧
    (testIfu 0x7fff#16 0x8000#16 = true ∧ testIfu 0x8000#16 0x8000#16 = false) := by decide
/-- Every one of the seven conditionals fails somewhere. -/
theorem witness_FailingTestSkipsOneInstruction :
    WritesPc (.ifb (.reg .a) (.reg .b)) State.reset ∧ WritesPc (.ife (.reg .a) (.short 1#16)) State.reset ∧
    WritesPc (.ifn (.reg .a) (.reg .b)) State.reset ∧ WritesPc (.ifg (.reg .a) (.reg .b)) State.reset ∧
    WritesPc (.ifa (.reg .a) (.reg .b)) State.reset ∧ WritesPc (.ifl (.reg .a) (.reg .b)) State.reset ∧
    WritesPc (.ifu (.reg .a) (.reg .b)) State.reset := by
  simp only [WritesPc]
  decide
theorem witness_ConditionalFrame : ∃ a b, Instr.ifl .push .pop = .ifl a b := ⟨_, _, rfl⟩
theorem witness_IntEntersHandler :
    enabled.ifFlag = true ∧ enabled.read enabled.config.ivec ≠ noHandler := by decide
theorem witness_IntWithoutHandlerContinues :
    State.reset.ifFlag = false ∧ unhandled.ifFlag = true ∧ unhandled.read unhandled.config.ivec = noHandler := by decide
theorem witness_LcrDeliversCr :
    opLoc (.reg .a) State.reset ≠ .ex ∧ opLoc (.reg .a) State.reset ≠ .sp ∧ opLoc (.reg .a) State.reset ≠ .pc ∧
    opLoc .sp State.reset = .sp ∧ opLoc .pc State.reset = .pc ∧ opLoc .ex State.reset = .ex := by decide
/-- The hypothesis that an instruction answers a next state is met by every one of the fourteen. -/
theorem witness_BasicWriteFrame (a : Dst) (b : Src) (s : State) :
    (∃ t, exec (.set a b) s = .next t) ∧ (∃ t, exec (.add a b) s = .next t) ∧ (∃ t, exec (.sub a b) s = .next t) ∧
    (∃ t, exec (.mul a b) s = .next t) ∧ (∃ t, exec (.mli a b) s = .next t) ∧ (∃ t, exec (.div a b) s = .next t) ∧
    (∃ t, exec (.dvi a b) s = .next t) ∧ (∃ t, exec (.mod a b) s = .next t) ∧ (∃ t, exec (.and a b) s = .next t) ∧
    (∃ t, exec (.bor a b) s = .next t) ∧ (∃ t, exec (.xor a b) s = .next t) ∧ (∃ t, exec (.shr a b) s = .next t) ∧
    (∃ t, exec (.asr a b) s = .next t) ∧ (∃ t, exec (.shl a b) s = .next t) :=
  ⟨⟨_, rfl⟩, ⟨_, rfl⟩, ⟨_, rfl⟩, ⟨_, rfl⟩, ⟨_, rfl⟩, ⟨_, rfl⟩, ⟨_, rfl⟩, ⟨_, rfl⟩, ⟨_, rfl⟩, ⟨_, rfl⟩, ⟨_, rfl⟩, ⟨_, rfl⟩, ⟨_, rfl⟩,
    ⟨_, rfl⟩⟩
theorem witness_ExKeptByOtherInstructions :
    (∀ a b, Instr.lcr .sp ≠ .add a b ∧ Instr.lcr .sp ≠ .sub a b ∧ Instr.lcr .sp ≠ .mul a b ∧ Instr.lcr .sp ≠ .mli a b ∧
      Instr.lcr .sp ≠ .div a b ∧ Instr.lcr .sp ≠ .dvi a b ∧ Instr.lcr .sp ≠ .shr a b ∧ Instr.lcr .sp ≠ .asr a b ∧
      Instr.lcr .sp ≠ .shl a b) ∧
    (∀ b, Instr.lcr .sp ≠ .set .ex b ∧ Instr.lcr .sp ≠ .mod .ex b ∧ Instr.lcr .sp ≠ .and .ex b ∧
      Instr.lcr .sp ≠ .bor .ex b ∧ Instr.lcr .sp ≠ .xor .ex b) ∧
    Instr.lcr .sp ≠ .lcr .ex ∧ ∃ t, exec (.lcr .sp) State.reset = .next t := by
  refine ⟨?_, ?_, ?_, _, rfl⟩ <;> simp
theorem witness_LiteralDestinationDiscarded : ∃ b, Instr.add .lit .pop = .add .lit b := ⟨_, rfl⟩
/-- HandlerStackFrame and the two handler exits. -/
theorem witness_HandlerStackFrame :
    enabled.ifFlag = true ∧ enabled.read enabled.config.ivec ≠ noHandler := by decide
theorem witness_InterruptEntryEffect :
    (unhandled.ifFlag = true ∧ unhandled.read unhandled.config.ivec = noHandler) ∧
    (enabled.ifFlag = true ∧ enabled.read enabled.config.ivec ≠ noHandler) := by decide
theorem witness_MaskedInterruptIsLost :
    ({ State.reset with extIrq := oneEvent 1#16 0#16 } : State).ifFlag = false ∧
    (oneEvent 1#16 0#16).event 0 = some { number := 1#16, argument := 0#16 } := by decide
/-- A boundary with an event, one without, an empty schedule, and the events of an endless schedule, one boundary nearer after
its empty slot. -/
theorem witness_HardwareInterruptBeforeFetch :
    (oneEvent 1#16 0#16).event 0 = some { number := 1#16, argument := 0#16 } ∧ endless.event 0 = none ∧
    enabled.extIrq = Schedule.empty ∧ endless.event 2 = Config.freeIrq 3 8 ∧
    endless.rest.event 1 = Config.freeIrq 3 8 := ⟨rfl, rfl, rfl, rfl, rfl⟩
/-- The two stack pointers between which `ADD SP, 2` wraps on the way out, and one where it does not. -/
theorem witness_HandlerExitReturns :
    ((enabled.setSp 1#16).ifFlag = true ∧ (enabled.setSp 1#16).read enabled.config.ivec ≠ noHandler ∧
      (enabled.setSp 1#16).sp = 1) ∧
    ((enabled.setSp 2#16).ifFlag = true ∧ (enabled.setSp 2#16).read enabled.config.ivec ≠ noHandler ∧
      (enabled.setSp 2#16).sp = 2) ∧
    ((enabled.setSp 3#16).ifFlag = true ∧ (enabled.setSp 3#16).read enabled.config.ivec ≠ noHandler ∧
      ¬ ((enabled.setSp 3#16).sp = 1 ∨ (enabled.setSp 3#16).sp = 2)) := by decide
theorem witness_HandlerExitKeepsEx :
    enabled.ifFlag = true ∧ enabled.read enabled.config.ivec ≠ noHandler ∧ Reg.b ≠ Reg.a := by decide
theorem witness_IfFlagWriters :
    Instr.jsr .push ≠ .cli ∧ Instr.jsr .push ≠ .sti ∧ (∀ a, Instr.jsr .push ≠ .scr a) ∧ (∀ a, Instr.jsr .push ≠ .int a) :=
  ⟨nofun, nofun, nofun, nofun⟩
theorem witness_CrReservedBitsKept :
    (∀ a, Instr.cli ≠ .scr a) ∧ (∃ t, exec .cli (enabled.setCr 0xffff#16) = .next t) ∧ 1 ≤ 1 ∧ 1 ≤ 15 :=
  ⟨nofun, ⟨_, rfl⟩, by decide, by decide⟩
theorem witness_CrInvisibleToOtherInstructions :
    touchesCr (.jsr .push) = false ∧ touchesCr (.ife .push .pop) = false ∧ touchesCr (.set .ex .pop) = false := by decide
theorem witness_ParametersNeverChange :
    HasConfig Config.default (start [0x0402#16]) ∧ ∃ t, step (start [0x0402#16]) = .next t := ⟨rfl, ⟨_, rfl⟩⟩
theorem witness_StepKeepsRamCanonical :
    RamCanonical (start [0xaf01#16]) ∧ ∃ t, step (start [0xaf01#16]) = .next t :=
  ⟨by unfold RamCanonical; decide, ⟨_, rfl⟩⟩
theorem witness_CanonicalRamDeterminedByReads :
    Memory.wf [(3, 2#16), (0xffff, 1#16)] ∧ ∀ addr : Word, Memory.read [(3, 2#16)] addr = Memory.read [(3, 2#16)] addr :=
  ⟨by decide, fun _ => rfl⟩
theorem witness_BootPlacesImage :
    (List.replicate 0x10000 1#16).length ≤ 0x10000 ∧ 0xffff < (List.replicate 0x10000 1#16).length ∧
    [7#16].length ≤ (1#16).toNat ∧ ([] : List Word).length ≤ (0#16).toNat :=
  ⟨le_of_eq List.length_replicate, by rw [List.length_replicate]; decide, by decide, by decide⟩
/-- `SET [0x0101], 7`, whose next word stands at 0x0100: it stores to the word executed next. -/
theorem witness_StoreSeenByNextFetch :
    dstLoc .mem (.short 7#16) (start [0x0101#16]) = .mem 0x0101#16 ∧
    after (exec (.set .mem (.short 7#16)) (start [0x0101#16])) (fun t => t.pc) = some 0x0101#16 := by decide
theorem witness_InstructionCycleCosts :
    (∃ t, exec (.ifn (.reg .a) (.reg .b)) State.reset = .next t) ∧ WritesPc (.ifn (.reg .a) (.reg .b)) State.reset ∧
    (∃ t, exec (.ife (.reg .a) (.reg .b)) State.reset = .next t) ∧ ¬ WritesPc (.ife (.reg .a) (.reg .b)) State.reset := by
  refine ⟨⟨_, rfl⟩, ?_, ⟨_, rfl⟩, ?_⟩ <;> (simp only [WritesPc]; decide)
theorem witness_TimingInvisibleToPrograms :
    SameButTiming (start [0x0402#16]) ((start [0x0402#16]).charge 7) ∧ (∃ t, step (start [0x0402#16]) = .next t) ∧
    SameButTiming State.reset (State.reset.charge 7) ∧ (∃ f, step State.reset = .fault f) :=
  ⟨⟨rfl, rfl, rfl, rfl, rfl, rfl, rfl, rfl, rfl⟩, ⟨_, rfl⟩, ⟨rfl, rfl, rfl, rfl, rfl, rfl, rfl, rfl, rfl⟩, ⟨_, rfl⟩⟩
/-- The three self-jumps, with no event left, with only empty slots left, and with IF = 0. -/
theorem witness_EndedRunStaysEnded :
    Ended ((start [0x7f81#16, 0x0100#16]).setCr 1#16) ∧
    Ended { (start [0x8b83#16]).setCr 1#16 with extIrq := { slots := [none, none], tail := .silent } } ∧
    Ended { State.boot [0x8781#16] with extIrq := oneEvent 1#16 0#16 } := by
  refine ⟨⟨by decide, .inl fun _ => rfl⟩, ⟨by decide, .inl fun k => ?_⟩, ⟨by decide, .inr rfl⟩⟩
  match k with
  | 0 => rfl
  | 1 => rfl
  | _ + 2 => rfl
/-- An event after an empty slot is still to come: with IF = 1 the run has not ended. -/
theorem test_not_ended :
    ¬ Ended { (start [0x8b83#16]).setCr 1#16 with
      extIrq := { slots := [none, some { number := 1#16, argument := 0#16 }], tail := .silent } } := by
  rintro ⟨-, h | h⟩
  · exact absurd (h 1) (by decide)
  · exact absurd h (by decide)

end Sys2Proof.Tests
end

section
/-! PROOF. Boot (rules R6, R25, R210): the words a load stores, and the image a boot places. -/

namespace Sys2Proof.Machine

/-- What a load of at most 0x10000 words leaves at an address: the word of the list whose number is the address's distance
from the base, modulo 0x10000 (rule R32), and where the list has no such word, what stood there before. -/
theorem Memory.read_load (m : Memory) (base : Word) (ws : List Word) (hlen : ws.length ≤ 0x10000) (addr : Word) :
    Memory.read (Memory.load m base ws) addr = ws[(addr - base).toNat]?.getD (Memory.read m addr) := by
  induction ws generalizing m base with
  | nil => rfl
  | cons w ws ih =>
    rw [List.length_cons] at hlen
    rw [Memory.load, ih _ _ (by omega)]
    by_cases h : addr = base
    · have far : (addr - (base + 1)).toNat = 0xffff := by bv_omega
      have none_left : ws[(addr - (base + 1)).toNat]? = none := List.getElem?_eq_none (by omega)
      rw [none_left, h, Memory.read_write_same, BitVec.sub_self]
      rfl
    · have next : (addr - base).toNat = (addr - (base + 1)).toNat + 1 := by bv_omega
      rw [Memory.read_write_ne _ _ h, next, List.getElem?_cons_succ]

/-- RAM after boot: the image from address 0, and 0 beyond it (decision D5). -/
theorem State.read_boot (image : List Word) (addr : Word) :
    (State.boot image).read addr = image[addr.toNat]?.getD 0 := by
  calc (State.boot image).read addr
      = (image.take 0x10000)[(addr - 0#16).toNat]?.getD (Memory.read [] addr) :=
        Memory.read_load [] 0 _ (List.length_take_le _ _) addr
    _ = image[addr.toNat]?.getD 0 := by
        rw [BitVec.sub_zero, List.getElem?_take_of_lt addr.isLt]
        rfl

/-- Settles O54: every read of RAM after boot is given by `State.read_boot`, and boot changes no other field. -/
theorem bootPlacesImage : Obligations.BootPlacesImage := by
  intro image hlen
  refine ⟨fun k h => ?_, fun addr h => ?_, rfl⟩
  · have hk : (BitVec.ofNat 16 k).toNat = k := (BitVec.toNat_ofNat k 16).trans (Nat.mod_eq_of_lt (by omega))
    rw [State.read_boot, hk, List.getElem?_eq_getElem h]
    rfl
  · rw [State.read_boot, List.getElem?_eq_none h]
    rfl

end Sys2Proof.Machine
end

section
/-! PROOF. The instruction boundary (rules R61, R183, decision D26): a hardware interrupt comes before the next fetch. -/

namespace Sys2Proof.Machine

/-- Interrupt entry neither reads nor changes the schedule of hardware interrupts. -/
theorem interrupt_withExtIrq (n arg : Word) (s : State) (e : Schedule) :
    interrupt n arg { s with extIrq := e } = { interrupt n arg s with extIrq := e } := by
  obtain ⟨hif, eq⟩ | ⟨hif, hh, eq⟩ | ⟨hif, hh, eq⟩ := interrupt_cases n arg s <;> rw [eq]
  · exact interrupt_masked hif
  · exact interrupt_noHandler hif hh
  · exact interrupt_taken hif hh

/-- A boundary without an event only uses up its slot. -/
theorem boundary_of_event_none {s : State} (h : s.extIrq.event 0 = none) : boundary s = s.dropSlot := by
  obtain ⟨-, eq⟩ | ⟨q, hq, -⟩ := boundary_cases s
  · exact eq
  · exact absurd (h.symm.trans hq) nofun

/-- A boundary with an event is interrupt entry, and its slot is used up. -/
theorem boundary_of_event_some {s : State} {q : Irq} (h : s.extIrq.event 0 = some q) :
    boundary s = { interrupt q.number q.argument s with extIrq := s.extIrq.rest } := by
  obtain ⟨hn, -⟩ | ⟨p, hp, eq⟩ := boundary_cases s
  · exact absurd (h.symm.trans hn) nofun
  · obtain rfl : q = p := Option.some.inj (h.symm.trans hp)
    exact eq.trans (interrupt_withExtIrq _ _ _ _)

/-- An empty slot is used up by a boundary that does nothing else. -/
theorem boundary_delay (s : State) (e : Schedule) :
    boundary { s with extIrq := e.delay } = { s with extIrq := e } :=
  boundary_of_event_none rfl

/-- All of a step comes after its boundary: states with the same boundary have the same step. -/
theorem step_congr_boundary {s t : State} (h : boundary s = boundary t) : step s = step t := by
  unfold step
  rw [h]

/-- Settles O44: the boundary that delivers an event and the empty boundary after that event's entry give the same state, and
the step goes on from there. -/
theorem hardwareInterruptBeforeFetch : Obligations.HardwareInterruptBeforeFetch := by
  intro s
  refine ⟨fun q hq => step_congr_boundary ?_, boundary_of_event_none, fun he => ?_, fun k => ⟨?_, ?_⟩,
    Schedule.event_delay_zero _⟩
  · rw [boundary_of_event_some hq, boundary_delay]
  · have hnone : s.extIrq.event 0 = none := by rw [he, Schedule.event_empty]
    rw [boundary_of_event_none hnone, State.dropSlot, he, Schedule.rest_empty, ← he]
  · rw [boundary_extIrq, Schedule.event_rest]
  · rw [Schedule.event_delay_succ, Schedule.event_rest]

end Sys2Proof.Machine
end

section
/-! PROOF. What an evaluated operand and interrupt entry leave in the fields of the state (rules R83, R84, R184), and the facts
about results that the invariants of single instructions rest on. -/

namespace Sys2Proof.Machine

/-! ### Results -/

/-- What is known of the next state an instruction answers holds of the next state it is given to answer. -/
theorem of_exists_next {r : Result} {P : State → Prop} {t : State} (h : ∃ t', r = .next t' ∧ P t') (ht : r = .next t) :
    P t := by
  obtain ⟨t', ht', hP⟩ := h
  obtain rfl : t' = t := Host.Outcome.next.inj (ht'.symm.trans ht)
  exact hP

/-- SET is the template of R100 with the source word as its result. -/
theorem exec_set_eq_alu (a : Dst) (b : Src) (s : State) : exec (.set a b) s = alu 1 (fun _ vb => vb) a b s := rfl

/-! ### A step -/

/-- A step that answers a next state ran the instruction its first word decodes to. -/
theorem exists_exec_of_step {s t : State} (h : step s = .next t) :
    ∃ i, decode (fetch (boundary s)).1 = .ok i ∧ exec i (fetch (boundary s)).2 = .next t := by
  unfold step at h
  cases hd : decode (fetch (boundary s)).1 with
  | error why => simp [hd] at h
  | ok i => exact ⟨i, rfl, by simpa [hd] using h⟩

/-- A step whose first word decodes runs the instruction. -/
theorem step_of_decode {s : State} {i : Instr} (h : decode (fetch (boundary s)).1 = .ok i) :
    step s = exec i (fetch (boundary s)).2 := by
  unfold step
  simp [h]

/-! ### Evaluated operands -/

@[simp] theorem evalB_mem (b : Src) (s : State) : (evalB b s).2.mem = s.mem := by rw [evalB_snd]; rfl
@[simp] theorem evalB_ex (b : Src) (s : State) : (evalB b s).2.ex = s.ex := by rw [evalB_snd]; rfl

@[simp] theorem evalA_pc (a : Dst) (s : State) : (evalA a s).2.pc = s.pc + BitVec.ofNat 16 a.nextWords := by
  rw [evalA_snd]; rfl
@[simp] theorem evalA_ex (a : Dst) (s : State) : (evalA a s).2.ex = s.ex := by rw [evalA_snd]; rfl
@[simp] theorem evalA_cr (a : Dst) (s : State) : (evalA a s).2.cr = s.cr := by rw [evalA_snd]; rfl
@[simp] theorem evalA_mem (a : Dst) (s : State) : (evalA a s).2.mem = s.mem := by rw [evalA_snd]; rfl
@[simp] theorem evalA_config (a : Dst) (s : State) : (evalA a s).2.config = s.config := by rw [evalA_snd]; rfl
@[simp] theorem evalA_ifFlag (a : Dst) (s : State) : (evalA a s).2.ifFlag = s.ifFlag := by rw [evalA_snd]; rfl
@[simp] theorem evalA_read (a : Dst) (s : State) (x : Word) : (evalA a s).2.read x = s.read x := by rw [evalA_snd]; rfl

/-- Only the operand EX denotes EX. -/
theorem evalA_ne_ex {a : Dst} (h : a ≠ .ex) (s : State) : (evalA a s).1 ≠ .ex := by
  cases a with
  | ex => exact absurd rfl h
  | _ => nofun

/-! ### Interrupt entry -/

/-- In all three outcomes of interrupt entry IF is 0 afterwards and the other bits of CR are kept. -/
@[simp] theorem interrupt_cr (n arg : Word) (s : State) : (interrupt n arg s).cr = s.cr &&& 0xfffe#16 := by
  obtain ⟨hif, e⟩ | ⟨-, -, e⟩ | ⟨-, -, e⟩ := interrupt_cases n arg s <;> rw [e]
  · have even : s.cr.toNat % 2 = 0 := by
      have hbit : s.cr.toNat.testBit 0 = false := hif
      simpa [Nat.testBit_zero] using hbit
    apply BitVec.eq_of_toNat_eq
    rw [clearBit0_toNat, State.charge_cr]
    omega
  · rfl
  · rfl

/-- An interrupt that does not reach a handler leaves PC alone. -/
theorem interrupt_pc {s : State} (h : ¬(s.ifFlag = true ∧ s.read s.config.ivec ≠ noHandler)) (n arg : Word) :
    (interrupt n arg s).pc = s.pc := by
  obtain ⟨-, e⟩ | ⟨-, -, e⟩ | ⟨hif, hh, -⟩ := interrupt_cases n arg s
  · rw [e]; rfl
  · rw [e]; rfl
  · exact absurd ⟨hif, hh⟩ h

end Sys2Proof.Machine
end

section
/-! PROOF. Canonical RAM (rules R22, R35, log 6) as an invariant of a step: the boundary keeps it, and so does the meaning of
every instruction, since all of them change RAM by `writeLoc` and `push` alone. -/

namespace Sys2Proof.Machine

variable {s : State}

theorem evalA_wf (h : RamCanonical s) (a : Dst) : RamCanonical (evalA a s).2 := by
  rwa [RamCanonical, evalA_mem]

theorem evalB_wf (h : RamCanonical s) (b : Src) : RamCanonical (evalB b s).2 := by
  rwa [RamCanonical, evalB_mem]

theorem alu_wf (base : Nat) (f : Word → Word → Word) (a : Dst) (b : Src) (h : RamCanonical s) :
    ∃ t, alu base f a b s = .next t ∧ RamCanonical t :=
  ⟨_, rfl, writeLoc_wf _ _ _ (evalA_wf (evalB_wf h b) a)⟩

theorem aluEx_wf (base : Nat) (f g : Word → Word → Word) (a : Dst) (b : Src) (h : RamCanonical s) :
    ∃ t, aluEx base f g a b s = .next t ∧ RamCanonical t :=
  ⟨_, rfl, writeLoc_wf _ _ _ (evalA_wf (evalB_wf h b) a)⟩

theorem conditional_wf (test : Word → Word → Bool) (a : Dst) (b : Src) (h : RamCanonical s) :
    ∃ t, conditional test a b s = .next t ∧ RamCanonical t := by
  have hops : RamCanonical (evalA a (evalB b s).2).2 := evalA_wf (evalB_wf h b) a
  cases htest : test (dstValue a b s) (srcValue b s) with
  | true => exact ⟨_, conditional_holds htest, hops⟩
  | false => exact ⟨_, conditional_fails htest, hops⟩

/-- Every instruction keeps RAM in canonical form. -/
theorem exec_wf (i : Instr) (h : RamCanonical s) : ∃ t, exec i s = .next t ∧ RamCanonical t := by
  cases i with
  | set a b => rw [exec_set_eq_alu]; exact alu_wf _ _ a b h
  | mod a b | and a b | bor a b | xor a b => exact alu_wf _ _ a b h
  | add a b | sub a b | mul a b | mli a b | div a b | dvi a b | shr a b | asr a b | shl a b => exact aluEx_wf _ _ _ a b h
  | ifb a b | ife a b | ifn a b | ifg a b | ifa a b | ifl a b | ifu a b => exact conditional_wf _ a b h
  | jsr a => exact ⟨_, rfl, push_wf (evalA_wf h a) _⟩
  | int a => exact ⟨_, rfl, interrupt_wf (evalA_wf h a) _ _⟩
  | lcr a => exact ⟨_, rfl, writeLoc_wf _ _ _ (evalA_wf h a)⟩
  | scr a => exact ⟨_, rfl, evalA_wf h a⟩
  | cli | sti => exact ⟨_, rfl, h⟩

/-- Settles O51: the boundary keeps RAM canonical, the fetch does not touch it, and every instruction keeps it canonical. -/
theorem stepKeepsRamCanonical : Obligations.StepKeepsRamCanonical := by
  intro s t h hstep
  obtain ⟨i, -, hexec⟩ := exists_exec_of_step hstep
  have hfetch : RamCanonical (fetch (boundary s)).2 := boundary_wf h
  exact of_exists_next (exec_wf i hfetch) hexec

end Sys2Proof.Machine
end

section
/-! PROOF. Where PC stands after an instruction that does not write it (rules R12, R55): past its next words, whose number its
first word tells. -/

namespace Sys2Proof.Machine

/-! ### The length of a decoded word -/

theorem codeNextWords_decodeDst (c : BitVec 5) : codeNextWords c.toNat = (decodeDst c).nextWords := by
  revert c; decide

theorem codeNextWords_decodeSrc (c : BitVec 6) : codeNextWords c.toNat = (decodeSrc c).nextWords := by
  revert c; decide

theorem nextWords_of_decodeBasic {o : BitVec 5} {a : Dst} {b : Src} {i : Instr} (h : decodeBasic o a b = .ok i) :
    i.nextWords = a.nextWords + b.nextWords := by
  unfold decodeBasic at h
  split at h <;> cases h <;> rfl

theorem nextWords_of_decodeSpecial {o : BitVec 7} {c : BitVec 5} {i : Instr} (h : decodeSpecial o c = .ok i) :
    i.nextWords = codeNextWords c.toNat := by
  rw [codeNextWords_decodeDst]
  unfold decodeSpecial at h
  split at h
  case h_4 | h_5 =>
    split at h
    · next hc => cases h; rw [hc]; rfl
    · cases h
  all_goals cases h <;> rfl

/-- The first word of an instruction counts the next words of its operands. -/
theorem len_of_decode {w : Word} {i : Instr} (h : decode w = .ok i) : len w = 1 + i.nextWords := by
  unfold decode at h
  unfold len
  cases hw : isSpecial w with
  | true =>
    rw [hw, if_pos rfl] at h
    rw [if_pos rfl, nextWords_of_decodeSpecial h]
  | false =>
    rw [hw, if_neg Bool.false_ne_true] at h
    rw [if_neg Bool.false_ne_true, nextWords_of_decodeBasic h, codeNextWords_decodeDst, codeNextWords_decodeSrc,
      Nat.add_assoc]

/-! ### PC after an instruction -/

variable {s : State} {a : Dst} {b : Src}

theorem operandWords_eq (a : Dst) (b : Src) : operandWords a b = BitVec.ofNat 16 (a.nextWords + b.nextWords) := by
  rw [operandWords, Nat.add_comm]

theorem alu_pc (base : Nat) (f : Word → Word → Word) (h : dstLoc a b s ≠ .pc) :
    ∃ t, alu base f a b s = .next t ∧ t.pc = s.pc + BitVec.ofNat 16 (a.nextWords + b.nextWords) := by
  obtain ⟨t, ht, -, ⟨-, -, -, -, hpc⟩, -⟩ := alu_next base f a b s
  exact ⟨t, ht, operandWords_eq a b ▸ hpc h⟩

theorem aluEx_pc (base : Nat) (f g : Word → Word → Word) (h : dstLoc a b s ≠ .pc) :
    ∃ t, aluEx base f g a b s = .next t ∧ t.pc = s.pc + BitVec.ofNat 16 (a.nextWords + b.nextWords) := by
  obtain ⟨t, ht, -, ⟨-, -, -, -, hpc⟩, -⟩ := aluEx_next base f g a b s
  exact ⟨t, ht, operandWords_eq a b ▸ hpc h⟩

theorem conditional_pc {test : Word → Word → Bool} (h : test (dstValue a b s) (srcValue b s) = true) :
    ∃ t, conditional test a b s = .next t ∧ t.pc = s.pc + BitVec.ofNat 16 (a.nextWords + b.nextWords) := by
  refine ⟨_, conditional_holds h, ?_⟩
  rw [evalBoth_snd, Nat.add_comm a.nextWords]
  rfl

/-- An instruction that does not write PC leaves it past its next words. -/
theorem exec_pc {i : Instr} (h : ¬ WritesPc i s) :
    ∃ t, exec i s = .next t ∧ t.pc = s.pc + BitVec.ofNat 16 i.nextWords := by
  cases i with
  | set a b => rw [exec_set_eq_alu]; exact alu_pc _ _ h
  | mod a b | and a b | bor a b | xor a b => exact alu_pc _ _ h
  | add a b | sub a b | mul a b | mli a b | div a b | dvi a b | shr a b | asr a b | shl a b => exact aluEx_pc _ _ _ h
  | ifb a b | ife a b | ifn a b | ifg a b | ifa a b | ifl a b | ifu a b =>
    exact conditional_pc (by
      simpa [WritesPc, testIfb, testIfe, testIfn, testIfg, testIfa, testIfl, testIfu] using h)
  | jsr a => exact absurd trivial h
  | int a =>
    refine ⟨_, rfl, ?_⟩
    rw [State.charge_pc, interrupt_pc (by simpa [WritesPc] using h), evalA_pc]
    rfl
  | lcr a =>
    have hloc : (evalA a s).1 ≠ .pc := h
    exact ⟨_, rfl, (writeLoc_pc _ _ _ hloc).trans (evalA_pc a s)⟩
  | scr a => exact ⟨_, rfl, evalA_pc a s⟩
  | cli | sti => exact ⟨_, rfl, (BitVec.add_zero _).symm⟩

/-- Settles O11: the fetch moves PC past the first word and the instruction past its next words, together its length. -/
theorem pcPastInstructionUnlessWritten : Obligations.PcPastInstructionUnlessWritten := by
  refine ⟨fun s => ⟨rfl, rfl⟩, fun s i hdecode hpc => ?_⟩
  obtain ⟨t, hexec, ht⟩ := exec_pc hpc
  refine ⟨t, (step_of_decode hdecode).trans hexec, ?_⟩
  rw [ht, State.setPc_pc, len_of_decode hdecode, BitVec.ofNat_add, BitVec.add_assoc]
  rfl

end Sys2Proof.Machine
end

section
/-! PROOF. EX (rules R16, R17): outside the nine instructions with an EX side effect, EX is written as a destination only. -/

namespace Sys2Proof.Machine

variable {s : State} {a : Dst} {b : Src}

theorem alu_ex (base : Nat) (f : Word → Word → Word) (h : a ≠ .ex) :
    ∃ t, alu base f a b s = .next t ∧ t.ex = s.ex := by
  obtain ⟨t, ht, -, -, hex, -⟩ := alu_next base f a b s
  exact ⟨t, ht, hex (evalA_ne_ex h _)⟩

theorem conditional_ex (test : Word → Word → Bool) : ∃ t, conditional test a b s = .next t ∧ t.ex = s.ex := by
  have hops : (evalA a (evalB b s).2).2.ex = s.ex := by rw [evalA_ex, evalB_ex]
  cases htest : test (dstValue a b s) (srcValue b s) with
  | true => exact ⟨_, conditional_holds htest, hops⟩
  | false => exact ⟨_, conditional_fails htest, hops⟩

/-- Settles O38: each of the eighteen other instructions writes at most its destination, which is EX only where its a operand
is EX; interrupt entry leaves EX alone. -/
theorem exKeptByOtherInstructions : Obligations.ExKeptByOtherInstructions := by
  intro i s t hnine hdst hlcr ht
  refine of_exists_next (P := fun t => t.ex = s.ex) ?_ ht
  cases i with
  | add a b | sub a b | mul a b | mli a b | div a b | dvi a b | shr a b | asr a b | shl a b => simpa using hnine a b
  | set a b => rw [exec_set_eq_alu]; exact alu_ex _ _ (by rintro rfl; simpa using hdst b)
  | mod a b | and a b | bor a b | xor a b => exact alu_ex _ _ (by rintro rfl; simpa using hdst b)
  | ifb a b | ife a b | ifn a b | ifg a b | ifa a b | ifl a b | ifu a b => exact conditional_ex _
  | jsr a | scr a => exact ⟨_, rfl, evalA_ex a s⟩
  | int a => exact ⟨_, rfl, (interrupt_ex _ _ _).trans (evalA_ex a s)⟩
  | lcr a =>
    have hloc : (evalA a s).1 ≠ .ex := evalA_ne_ex (by rintro rfl; exact hlcr rfl) s
    exact ⟨_, rfl, (writeLoc_ex _ _ _ hloc).trans (evalA_ex a s)⟩
  | cli | sti => exact ⟨_, rfl, rfl⟩

end Sys2Proof.Machine
end

section
/-! PROOF. CR (rules R18 to R21): the twenty-two instructions outside `touchesCr` commute with a write of CR, and what CR is
after any instruction. -/

namespace Sys2Proof.Machine

/-! ### What commutes with a write of CR -/

theorem evalB_setCr (b : Src) (s : State) (v : Word) :
    evalB b (s.setCr v) = ((evalB b s).1, (evalB b s).2.setCr v) := by
  cases b <;> rfl

theorem evalA_setCr (a : Dst) (s : State) (v : Word) :
    evalA a (s.setCr v) = ((evalA a s).1, (evalA a s).2.setCr v) := by
  cases a <;> rfl

theorem readLoc_setCr (l : Loc) (s : State) (v : Word) : readLoc l (s.setCr v) = readLoc l s := by
  cases l <;> rfl

theorem writeLoc_setCr (l : Loc) (x : Word) (s : State) (v : Word) :
    writeLoc l x (s.setCr v) = (writeLoc l x s).setCr v := by
  cases l <;> rfl

theorem alu_setCr (base : Nat) (f : Word → Word → Word) (a : Dst) (b : Src) (s : State) (v : Word) :
    ∃ t, alu base f a b s = .next t ∧ alu base f a b (s.setCr v) = .next (t.setCr v) := by
  refine ⟨_, rfl, ?_⟩
  simp only [alu, evalB_setCr, evalA_setCr, readLoc_setCr, writeLoc_setCr]
  rfl

theorem aluEx_setCr (base : Nat) (f g : Word → Word → Word) (a : Dst) (b : Src) (s : State) (v : Word) :
    ∃ t, aluEx base f g a b s = .next t ∧ aluEx base f g a b (s.setCr v) = .next (t.setCr v) := by
  refine ⟨_, rfl, ?_⟩
  simp only [aluEx, evalB_setCr, evalA_setCr, readLoc_setCr, writeLoc_setCr]
  rfl

theorem conditional_setCr (test : Word → Word → Bool) (a : Dst) (b : Src) (s : State) (v : Word) :
    ∃ t, conditional test a b s = .next t ∧ conditional test a b (s.setCr v) = .next (t.setCr v) := by
  simp only [conditional, evalB_setCr, evalA_setCr, readLoc_setCr]
  split <;> exact ⟨_, rfl, rfl⟩

theorem exec_setCr {i : Instr} (h : touchesCr i = false) (s : State) (v : Word) :
    ∃ t, exec i s = .next t ∧ exec i (s.setCr v) = .next (t.setCr v) := by
  cases i with
  | set a b => simp only [exec_set_eq_alu]; exact alu_setCr _ _ a b s v
  | mod a b | and a b | bor a b | xor a b => exact alu_setCr _ _ a b s v
  | add a b | sub a b | mul a b | mli a b | div a b | dvi a b | shr a b | asr a b | shl a b =>
    exact aluEx_setCr _ _ _ a b s v
  | ifb a b | ife a b | ifn a b | ifg a b | ifa a b | ifl a b | ifu a b => exact conditional_setCr _ a b s v
  | jsr a =>
    refine ⟨_, rfl, ?_⟩
    simp only [exec, execJsr, evalA_setCr, readLoc_setCr]
    rfl
  | int a | cli | sti | lcr a | scr a => exact absurd h nofun

/-- An instruction that commutes with every write of CR commutes with writing back the CR there is, so it keeps CR. -/
theorem exec_cr_kept {i : Instr} (h : touchesCr i = false) (s : State) : ∃ t, exec i s = .next t ∧ t.cr = s.cr := by
  obtain ⟨t, -, hself⟩ := exec_setCr h s s.cr
  exact ⟨t.setCr s.cr, hself, rfl⟩

/-- Settles O49: the twenty-two instructions commute with a write of CR. -/
theorem crInvisibleToOtherInstructions : Obligations.CrInvisibleToOtherInstructions := by
  intro i s v h
  obtain ⟨t, ht, hv⟩ := exec_setCr h s v
  exact ⟨t, ht, of_exists_next (exec_cr_kept h s) ht, hv⟩

/-! ### CR after an instruction -/

/-- CR after instruction `i` run in `s`. INT leaves IF 0 on every path: masked, without a handler (D20, log 25) or taken. -/
def crAfter (i : Instr) (s : State) : Word :=
  match i with
  | .cli | .int _ => s.cr &&& 0xfffe#16
  | .sti => s.cr ||| 0x0001#16
  | .scr a => opValue a s
  | _ => s.cr

theorem exec_cr (i : Instr) (s : State) : ∃ t, exec i s = .next t ∧ t.cr = crAfter i s := by
  cases i with
  | cli | sti | scr a => exact ⟨_, rfl, rfl⟩
  | int a => exact ⟨_, rfl, (interrupt_cr _ _ _).trans (congrArg (· &&& 0xfffe#16) (evalA_cr a s))⟩
  | lcr a => exact ⟨_, rfl, (writeLoc_cr _ _ _).trans (evalA_cr a s)⟩
  | _ => exact exec_cr_kept rfl s

theorem getLsbD_clearBit0_of_pos (v : Word) {k : Nat} (hk : 1 ≤ k) : (v &&& 0xfffe#16).getLsbD k = v.getLsbD k := by
  rw [show (0xfffe#16) = ~~~1#16 from rfl, BitVec.getLsbD_and, BitVec.getLsbD_not, BitVec.getLsbD_one]
  have hne : k ≠ 0 := by omega
  simpa [hne] using BitVec.lt_of_getLsbD

theorem getLsbD_setBit0_of_pos (v : Word) {k : Nat} (hk : 1 ≤ k) : (v ||| 0x0001#16).getLsbD k = v.getLsbD k := by
  have hne : k ≠ 0 := by omega
  simp [BitVec.getLsbD_one, hne]

/-- Settles O47: IF is bit 0 of the CR that `exec_cr` gives. -/
theorem ifFlagWriters : Obligations.IfFlagWriters := by
  intro i s
  obtain ⟨t, ht, hcr⟩ := exec_cr i s
  have hif : t.ifFlag = (crAfter i s).getLsbD 0 := congrArg (BitVec.getLsbD · 0) hcr
  refine ⟨t, ht, ?_, ?_, ?_, ?_, ?_⟩
  · rintro rfl; simp [hif, crAfter]
  · rintro rfl; simp [hif, crAfter]
  · rintro a rfl; exact hif
  · rintro a rfl; simp [hif, crAfter]
  · intro hcli hsti hscr hint
    cases i with
    | cli => exact absurd rfl hcli
    | sti => exact absurd rfl hsti
    | scr a => exact absurd rfl (hscr a)
    | int a => exact absurd rfl (hint a)
    | _ => exact hif

/-- Settles O48: interrupt entry and the other instructions that change CR change its bit 0 alone. -/
theorem crReservedBitsKept : Obligations.CrReservedBitsKept := by
  intro s k hk
  refine ⟨?_, fun i t hscr ht => ?_⟩
  · obtain ⟨-, e⟩ | ⟨q, -, e⟩ := boundary_cases s
    · rw [e, State.dropSlot_cr]
    · rw [e, interrupt_cr, State.dropSlot_cr, getLsbD_clearBit0_of_pos _ hk]
  · rw [of_exists_next (exec_cr i s) ht]
    cases i with
    | cli | int a => exact getLsbD_clearBit0_of_pos _ hk
    | sti => exact getLsbD_setBit0_of_pos _ hk
    | scr a => exact absurd rfl (hscr a)
    | _ => rfl

end Sys2Proof.Machine
end

section
/-! PROOF. Reset (rules R25, R210). -/

namespace Sys2Proof.Machine

/-- Settles O55: the fields of `State.reset`, read through the registers, RAM and the schedule. -/
theorem resetValues : Obligations.ResetValues := by
  refine ⟨fun r => ?_, rfl, rfl, rfl, rfl, rfl, fun _ => rfl, Schedule.event_empty, rfl, rfl⟩
  cases r <;> rfl

end Sys2Proof.Machine
end

section
/-! PROOF. RAM as a function (rules R30, R35, log 6): a canonical memory lists exactly the nonblank words that are read from it,
in the order of their addresses, so the words read determine the list. -/

namespace Sys2Proof.Machine

/-- What a canonical memory lists: the words in range that read as something other than the blank word. -/
theorem Memory.mem_iff_read {m : Memory} (h : Memory.wf m) (c : Nat × Word) :
    c ∈ m ↔ c.1 < 0x10000 ∧ c.2 ≠ Config.blankWord ∧ Memory.read m (BitVec.ofNat 16 c.1) = c.2 := by
  have read_eq (hlt : c.1 < 0x10000) : Memory.read m (BitVec.ofNat 16 c.1) = Memory.lookup m c.1 :=
    congrArg (Memory.lookup m) ((BitVec.toNat_ofNat c.1 16).trans (Nat.mod_eq_of_lt hlt))
  constructor
  · intro hc
    obtain ⟨hlt, hne⟩ := h.2 c hc
    exact ⟨hlt, hne, (read_eq hlt).trans (Memory.lookup_of_mem h hc)⟩
  · rintro ⟨hlt, hne, hread⟩
    have hlookup : Memory.lookup m c.1 = c.2 := (read_eq hlt).symm.trans hread
    have hmem := Memory.mem_of_lookup (hlookup ▸ hne)
    rwa [hlookup] at hmem

/-- Settles O53: the two memories list the same cells, each in the order of the addresses. -/
theorem canonicalRamDeterminedByReads : Obligations.CanonicalRamDeterminedByReads := by
  intro m m' h h' hread
  have same_cells (c : Nat × Word) : c ∈ m ↔ c ∈ m' := by
    rw [Memory.mem_iff_read h, Memory.mem_iff_read h', hread]
  have sorted {l : Memory} (hl : Memory.wf l) : l.Pairwise (Prod.fst ⁻¹'o (· < ·)) :=
    hl.1.of_map Prod.fst fun _ _ hlt => hlt
  exact (sorted h).eq_of_mem_iff (sorted h') same_cells

end Sys2Proof.Machine
end

section
/-! PROOF. Fetch coherence (rule R41, decision D21): SET stores to the RAM the next fetch reads. -/

namespace Sys2Proof.Machine

/-- Settles O56: SET leaves its source word at its destination, and a fetch reads the RAM word at PC. -/
theorem storeSeenByNextFetch : Obligations.StoreSeenByNextFetch := by
  intro a b s
  obtain ⟨t, ht, hstored, -⟩ := alu_next 1 (fun _ vb => vb) a b s
  refine ⟨t, (exec_set_eq_alu a b s).trans ht, fun hdst => ?_⟩
  rw [hdst] at hstored
  exact hstored

end Sys2Proof.Machine
end

section
/-! PROOF. The decoder and the encoder (rules R51 to R53, R56, R57, R60): fields and value codes rebuild the word, so decoding
and encoding undo each other. -/

namespace Sys2Proof.Machine

/-! ### A word rebuilt from its fields -/

theorem append_basic_fields (w : Word) : fieldB w ++ fieldA w ++ fieldO w = w := by
  rw [fieldB, fieldA, fieldO, BitVec.extractLsb'_append_extractLsb'_eq_extractLsb' (start₂ := 10) rfl,
    BitVec.extractLsb'_append_extractLsb'_eq_extractLsb' (start₂ := 5) rfl]
  exact BitVec.extractLsb'_eq_self

theorem specialWord_fields {w : Word} (h : isSpecial w = true) : specialWord (fieldS w) (fieldSpecialA w) = w := by
  have low : 0#4 = w.extractLsb' 0 4 := (of_decide_eq_true h).symm
  rw [specialWord, low, fieldS, fieldSpecialA,
    BitVec.extractLsb'_append_extractLsb'_eq_extractLsb' (start₂ := 11) rfl,
    BitVec.extractLsb'_append_extractLsb'_eq_extractLsb' (start₂ := 4) rfl]
  exact BitVec.extractLsb'_eq_self

theorem code_decodeDst (c : BitVec 5) : (decodeDst c).code = c := by
  revert c; decide

theorem code_decodeSrc (c : BitVec 6) : (decodeSrc c).code = c := by
  revert c; decide

theorem decodeSrc_wf (c : BitVec 6) : (decodeSrc c).wf = true := by
  revert c; decide

theorem basicWord_fields (w : Word) : basicWord (fieldO w) (decodeDst (fieldA w)) (decodeSrc (fieldB w)) = w := by
  rw [basicWord, code_decodeDst, code_decodeSrc, append_basic_fields]

/-! ### Encoding what a word decodes to -/

theorem encode_of_decodeBasic {o : BitVec 5} {a : Dst} {b : Src} {i : Instr} (h : decodeBasic o a b = .ok i) :
    i.wf = b.wf ∧ encode i = basicWord o a b := by
  unfold decodeBasic at h
  split at h
  case h_22 => cases h
  all_goals
    rename_i ho
    cases h
    exact ⟨rfl, congrArg (basicWord · a b) (BitVec.eq_of_toNat_eq ho.symm)⟩

theorem encode_of_decodeSpecial {s : BitVec 7} {c : BitVec 5} {i : Instr} (h : decodeSpecial s c = .ok i) :
    i.wf = true ∧ encode i = specialWord s c := by
  unfold decodeSpecial at h
  split at h
  case h_1 | h_8 => cases h
  case h_4 hs | h_5 hs =>
    split at h
    · next hc =>
      cases h
      exact ⟨rfl, congrArg₂ specialWord (BitVec.eq_of_toNat_eq hs.symm) hc.symm⟩
    · cases h
  all_goals
    rename_i hs
    cases h
    exact ⟨rfl, congrArg₂ specialWord (BitVec.eq_of_toNat_eq hs.symm) (code_decodeDst c)⟩

/-- Settles O2: the opcode tables give each row the opcode it is decoded from, and the fields rebuild the word. -/
theorem encodeOfDecode : Obligations.EncodeOfDecode := by
  intro w i h
  unfold decode at h
  split at h
  · next hspecial =>
    obtain ⟨hwf, hencode⟩ := encode_of_decodeSpecial h
    exact ⟨hwf, hencode.trans (specialWord_fields hspecial)⟩
  · obtain ⟨hwf, hencode⟩ := encode_of_decodeBasic h
    exact ⟨hwf.trans (decodeSrc_wf _), hencode.trans (basicWord_fields w)⟩

/-! ### Decoding an encoding -/

theorem decode_basicWord {o : BitVec 5} (ho : o.extractLsb' 0 4 ≠ 0#4) (a : Dst) {b : Src} (h : b.wf = true) :
    decode (basicWord o a b) = decodeBasic o a b := by
  simp [decode, isSpecial_basicWord, ho, decodeSrc_code h]

theorem decode_specialWord (s : BitVec 7) (c : BitVec 5) : decode (specialWord s c) = decodeSpecial s c := by
  simp [decode]

/-- The encoding of a well-formed instruction decodes to it. -/
theorem decode_encode {i : Instr} (h : i.wf = true) : decode (encode i) = .ok i := by
  cases i with
  | set a b | add a b | sub a b | mul a b | mli a b | div a b | dvi a b | mod a b | and a b | bor a b | xor a b
  | shr a b | asr a b | shl a b | ifb a b | ife a b | ifn a b | ifg a b | ifa a b | ifl a b | ifu a b =>
    exact decode_basicWord (by decide) a h
  | jsr a | int a | lcr a | scr a => simp [encode, decode_specialWord, decodeSpecial]
  | cli | sti => rfl

end Sys2Proof.Machine
end

section
/-! PROOF. The reserved first words (rules R58, R59, decisions D14, D15), by opcode table and then by the bits of the word. -/

namespace Sys2Proof.Machine

/-! ### The fields of a word, in its number (rules R51 to R53) -/

theorem isSpecial_iff (w : Word) : isSpecial w = true ↔ w.toNat % 16 = 0 := by
  rw [isSpecial, decide_eq_true_iff, ← BitVec.toNat_inj, BitVec.extractLsb'_toNat]
  rfl

theorem fieldO_toNat (w : Word) : (fieldO w).toNat = w.toNat % 32 := rfl

theorem fieldS_toNat (w : Word) : (fieldS w).toNat = w.toNat / 16 % 128 := by
  rw [fieldS, BitVec.extractLsb'_toNat, Nat.shiftRight_eq_div_pow]

theorem fieldSpecialA_toNat (w : Word) : (fieldSpecialA w).toNat = w.toNat / 0x800 := by
  rw [fieldSpecialA, BitVec.extractLsb'_toNat, Nat.shiftRight_eq_div_pow]
  omega

/-! ### The rows the opcode tables leave out -/

theorem decodeBasic_eq_error_iff (o : BitVec 5) (a : Dst) (b : Src) (why : Reserved) :
    decodeBasic o a b = .error why ↔
      why = .unassignedBasic ∧ (o.toNat % 16 = 0 ∨ o.toNat = 0x0f ∨ 0x18 ≤ o.toNat) := by
  unfold decodeBasic
  split
  case h_22 =>
    have unlisted : o.toNat % 16 = 0 ∨ o.toNat = 0x0f ∨ 0x18 ≤ o.toNat := by grind
    simp [unlisted, eq_comm (b := why)]
  all_goals simp [*]

theorem decodeSpecial_eq_error_iff (s : BitVec 7) (c : BitVec 5) (why : Reserved) :
    decodeSpecial s c = .error why ↔
      why = .specialZero ∧ s.toNat = 0 ∨
      why = .specialReserved ∧ 0x07 ≤ s.toNat ∨
      why = .operandOnCliSti ∧ (s.toNat = 0x03 ∨ s.toNat = 0x04) ∧ c.toNat ≠ 0 := by
  unfold decodeSpecial
  split
  case h_4 | h_5 =>
    have field_zero : c.toNat = 0 ↔ c = 0#5 := by rw [← BitVec.toNat_inj]; rfl
    split <;> simp [*, eq_comm (b := why)]
  case h_8 =>
    have unlisted : 0x07 ≤ s.toNat := by grind
    have nonzero : s.toNat ≠ 0 := by omega
    have not_cli_sti : ¬(s.toNat = 0x03 ∨ s.toNat = 0x04) := by omega
    simp [unlisted, nonzero, not_cli_sti, eq_comm (b := why)]
  all_goals simp [*, eq_comm (b := why)]

/-- A word is reserved in the table of its own format only, and its fields are those of its number. -/
theorem decode_eq_error_iff (w : Word) (why : Reserved) :
    decode w = .error why ↔
      w.toNat % 16 ≠ 0 ∧ why = .unassignedBasic ∧ (w.toNat % 32 = 0x0f ∨ 0x18 ≤ w.toNat % 32) ∨
      w.toNat % 16 = 0 ∧
        (why = .specialZero ∧ w.toNat / 16 % 128 = 0 ∨
         why = .specialReserved ∧ 0x07 ≤ w.toNat / 16 % 128 ∨
         why = .operandOnCliSti ∧ (w.toNat / 16 % 128 = 0x03 ∨ w.toNat / 16 % 128 = 0x04) ∧ w.toNat / 0x800 ≠ 0) := by
  unfold decode
  split
  · next hspecial =>
    have low : w.toNat % 16 = 0 := (isSpecial_iff w).mp hspecial
    rw [decodeSpecial_eq_error_iff, fieldS_toNat, fieldSpecialA_toNat]
    simp [low]
  · next hspecial =>
    have low : w.toNat % 16 ≠ 0 := mt (isSpecial_iff w).mpr hspecial
    rw [decodeBasic_eq_error_iff, fieldO_toNat]
    simp [low]

/-- Settles O3: `decode_eq_error_iff` at each class, the special opcode and the low four bits read as one field. -/
theorem reservedWordClasses : Obligations.ReservedWordClasses := by
  intro w
  simp only [decode_eq_error_iff, reduceCtorEq, true_and, false_and, and_false, or_false, false_or]
  omega

end Sys2Proof.Machine
end

section
/-! PROOF. The length a first word tells (rules R50, R55, decision D16), for every word. -/

namespace Sys2Proof.Machine

theorem codeNextWords_le_one (c : Nat) : codeNextWords c ≤ 1 := by
  unfold codeNextWords
  split <;> omega

theorem len_bounds (w : Word) : 1 ≤ len w ∧ len w ≤ 3 := by
  have special := codeNextWords_le_one (fieldSpecialA w).toNat
  have a := codeNextWords_le_one (fieldA w).toNat
  have b := codeNextWords_le_one (fieldB w).toNat
  unfold len
  split <;> omega

/-- Settles O5: each operand field asks for at most one next word, and a decoded word asks for those of its operands. -/
theorem lenOfFirstWord : Obligations.LenOfFirstWord := fun w =>
  ⟨(len_bounds w).1, (len_bounds w).2, fun _ => len_of_decode⟩

end Sys2Proof.Machine
end

section
/-! PROOF. The cycle of a step (rules R58, R61), and `SET [addr], v` in three words (rule R54, decision D8). -/

namespace Sys2Proof.Machine

/-- A step whose first word is reserved stops there. -/
theorem step_of_reserved {s : State} {why : Reserved} (h : decode (fetch (boundary s)).1 = .error why) :
    step s = .fault (.illegal why (fetch (boundary s)).1 (fetch (boundary s)).2) := by
  unfold step
  simp [h]

/-- Settles O8: the first word and the state of `step_of_decode`, with the fetch written out. -/
theorem stepRunsDecodedInstruction : Obligations.StepRunsDecodedInstruction := fun _ _ h => step_of_decode h

/-- Settles O9: the fault of `step_of_reserved`, with the fetch written out. -/
theorem reservedWordFaultsAtOnce : Obligations.ReservedWordFaultsAtOnce := fun _ _ h => step_of_reserved h

/-- Where no interrupt can be taken, the boundary uses up its slot and at most counts the cycles of a masked interrupt. -/
theorem boundary_of_quiet {s : State} (h : Quiet s) : ∃ n, boundary s = s.dropSlot.charge n := by
  obtain ⟨-, e⟩ | ⟨q, hq, e⟩ := boundary_cases s
  · exact ⟨0, e⟩
  · obtain hmasked | hnone := h
    · exact ⟨_, e.trans (interrupt_masked hmasked)⟩
    · exact absurd (hq.symm.trans hnone) nofun

/-- `SET [next word], next word`: the source word is fetched first, the address second. -/
theorem exec_set_mem_lit (s : State) :
    exec (.set .mem .lit) s =
      .next (((s.setPc (s.pc + 1 + 1)).store (s.read (s.pc + 1)) (s.read s.pc)).charge 3) := rfl

/-- Settles O6: after a quiet boundary and the fetch of the first word, `exec_set_mem_lit` stores the second word at the
address in the third. -/
theorem threeWordStore : Obligations.ThreeWordStore := by
  rintro s v addr hquiet hfirst rfl rfl
  obtain ⟨n, hboundary⟩ := boundary_of_quiet hquiet
  have hdecode : decode (fetch (boundary s)).1 = .ok (.set .mem .lit) := by
    rw [hboundary]
    exact (congrArg decode hfirst).trans rfl
  refine ⟨_, (step_of_decode hdecode).trans (exec_set_mem_lit _), ?_⟩
  have next_address : s.pc + 1#16 + 1#16 = s.pc + 2#16 := BitVec.add_assoc _ _ _
  have next_pc : s.pc + 2#16 + 1#16 = s.pc + 3#16 := BitVec.add_assoc _ _ _
  rw [hboundary]
  refine ⟨?_, fun x (hx : x ≠ s.read (s.pc + 2#16)) => ?_, ?_, rfl, rfl, rfl, rfl⟩
  · simp [fetch, next_address]
  · simp [fetch, next_address, State.read_store, hx]
  · simp [fetch, next_address, next_pc]

end Sys2Proof.Machine
end

section
/-! PROOF. The assembler's lines (rules R62, R63, log 35, log 38): an operand that has a value code has the next words of that
code, so a line's instruction is well-formed and its words are as many as its first word tells. -/

namespace Sys2Proof.Machine

theorem mem_of_named {α : Type} {name : String} {table : List (String × α)} {x : α} (h : named name table = some x) :
    (name, x) ∈ table := by
  induction table with
  | nil => cases h
  | cons entry rest ih =>
    obtain ⟨n, y⟩ := entry
    rw [named] at h
    split at h
    · next hn => cases h; simp [hn]
    · exact List.mem_cons_of_mem _ (ih h)

theorem asmWords_length {labels : List (String × Word)} {ns : List AsmNum} {ws : List Word}
    (h : asmWords labels ns = some ws) : ws.length = ns.length := by
  induction ns generalizing ws with
  | nil => cases h; rfl
  | cons n rest ih =>
    simp only [asmWords, Option.bind_eq_bind, Option.bind_eq_some_iff, Option.some.injEq] at h
    obtain ⟨w, -, ws', hrest, rfl⟩ := h
    simp [ih hrest]

theorem asDst_length {o : AsmOperand} {a : Dst} {ns : List AsmNum} (h : o.asDst = some (a, ns)) :
    ns.length = a.nextWords := by
  cases o <;> cases h <;> rfl

theorem asSrc_wf_length {o : AsmOperand} {b : Src} {ns : List AsmNum} (h : o.asSrc = some (b, ns)) :
    b.wf = true ∧ ns.length = b.nextWords := by
  cases o with
  | lit n =>
    cases n with
    | label l => cases h; exact ⟨rfl, rfl⟩
    | num v =>
      rw [AsmOperand.asSrc] at h
      split at h
      · next hfits => cases h; exact ⟨hfits, rfl⟩
      · cases h; exact ⟨rfl, rfl⟩
  | _ => cases h <;> exact ⟨rfl, rfl⟩

theorem basicMnemonics_wf_nextWords : ∀ entry ∈ basicMnemonics, ∀ a b,
    (entry.2 a b).wf = b.wf ∧ (entry.2 a b).nextWords = a.nextWords + b.nextWords := by
  simp [basicMnemonics, Instr.wf, Instr.nextWords]

theorem specialMnemonics_wf_nextWords : ∀ entry ∈ specialMnemonics, ∀ a,
    (entry.2 a).wf = true ∧ (entry.2 a).nextWords = a.nextWords := by
  simp [specialMnemonics, Instr.wf, Instr.nextWords]

theorem bareMnemonics_wf_nextWords : ∀ entry ∈ bareMnemonics, entry.2.wf = true ∧ entry.2.nextWords = 0 := by
  decide

/-- The instruction of a line is well-formed and comes with one number for each of its next words. -/
theorem AsmLine.instr_wf_length {line : AsmLine} {i : Instr} {ns : List AsmNum} (h : line.instr = some (i, ns)) :
    i.wf = true ∧ ns.length = i.nextWords := by
  cases line with
  | label name => cases h
  | basic m x y =>
    simp only [AsmLine.instr, Option.bind_eq_bind, Option.bind_eq_some_iff, Option.some.injEq, Prod.mk.injEq] at h
    obtain ⟨f, hf, ⟨a, ms⟩, ha, ⟨b, ks⟩, hb, rfl, rfl⟩ := h
    obtain ⟨hwf, hnext⟩ := basicMnemonics_wf_nextWords _ (mem_of_named hf) a b
    obtain ⟨hbwf, hblen⟩ := asSrc_wf_length hb
    refine ⟨hwf.trans hbwf, ?_⟩
    rw [hnext, List.length_append, asDst_length ha, hblen, Nat.add_comm]
  | special m x =>
    simp only [AsmLine.instr, Option.bind_eq_bind, Option.bind_eq_some_iff, Option.some.injEq, Prod.mk.injEq] at h
    obtain ⟨f, hf, ⟨a, ms⟩, ha, rfl, rfl⟩ := h
    obtain ⟨hwf, hnext⟩ := specialMnemonics_wf_nextWords _ (mem_of_named hf) a
    exact ⟨hwf, (asDst_length ha).trans hnext.symm⟩
  | bare m =>
    simp only [AsmLine.instr, Option.bind_eq_bind, Option.bind_eq_some_iff, Option.some.injEq, Prod.mk.injEq] at h
    obtain ⟨j, hj, rfl, rfl⟩ := h
    obtain ⟨hwf, hnext⟩ := bareMnemonics_wf_nextWords _ (mem_of_named hj)
    exact ⟨hwf, hnext.symm⟩

/-- The words of a line: the encoding of its instruction and one word for each of its numbers. -/
theorem AsmLine.words_eq_some {labels : List (String × Word)} {line : AsmLine} {w : Word} {ws : List Word}
    (h : line.words labels = some (w :: ws)) :
    ∃ i ns, line.instr = some (i, ns) ∧ w = encode i ∧ ws.length = ns.length := by
  simp only [AsmLine.words, Option.bind_eq_bind, Option.bind_eq_some_iff, Option.some.injEq, List.cons.injEq] at h
  obtain ⟨⟨i, ns⟩, hi, ws', hws, rfl, rfl⟩ := h
  exact ⟨i, ns, hi, rfl, asmWords_length hws⟩

/-- Settles O7: the first word encodes a well-formed instruction, so it decodes to it and its length counts the next words. -/
theorem assembledLineDecodes : Obligations.AssembledLineDecodes := by
  intro labels line w ws h
  obtain ⟨i, ns, hi, rfl, hlen⟩ := AsmLine.words_eq_some h
  obtain ⟨hwf, hnext⟩ := AsmLine.instr_wf_length hi
  have hdecode : decode (encode i) = .ok i := decode_encode hwf
  refine ⟨?_, i, ns, hi, hdecode⟩
  rw [len_of_decode hdecode, hlen, hnext]

end Sys2Proof.Machine
end

section
/-! PROOF. The operands (40_operands.md): what the evaluators make of each value code (R83, R84), reading back a written
location (R85, R86), and the write that a literal destination discards (R88, decision D9). -/

namespace Sys2Proof.Machine

/-! ### Locations -/

theorem holds_iff_readLoc {l : Loc} (h : ∀ x, l ≠ .lit x) (v : Word) (s : State) : Holds l v s ↔ readLoc l s = v := by
  cases l with
  | lit x => exact absurd rfl (h x)
  | _ => rfl

theorem readLoc_writeLoc_same {l : Loc} (h : ∀ x, l ≠ .lit x) (v : Word) (s : State) :
    readLoc l (writeLoc l v s) = v :=
  (holds_iff_readLoc h v _).mp (writeLoc_holds l v s)

theorem readLoc_writeLoc_ne {l l' : Loc} (h : l' ≠ l) (v : Word) (s : State) :
    readLoc l' (writeLoc l v s) = readLoc l' s := by
  cases l' with
  | reg r => exact writeLoc_reg l v s r h.symm
  | mem addr => exact writeLoc_read l v s addr h.symm
  | sp => exact writeLoc_sp l v s h.symm
  | pc => exact writeLoc_pc l v s h.symm
  | ex => exact writeLoc_ex l v s h.symm
  | lit x => rfl

/-- Settles O14: read after write at the same location and at another one; a literal is both its own value and no place. -/
theorem locationReadAfterWrite : Obligations.LocationReadAfterWrite := by
  intro l v s
  refine ⟨fun h => readLoc_writeLoc_same h v s, fun l' h => readLoc_writeLoc_ne h v s, ?_⟩
  rintro x rfl
  exact ⟨rfl, rfl⟩

/-! ### The fourteen basic instructions that write a, and a literal there -/

/-- `i` is one of the fourteen basic instructions that write a, with operands `a` and `b`. -/
def WritesDst (i : Instr) (a : Dst) (b : Src) : Prop :=
  i = .set a b ∨ i = .add a b ∨ i = .sub a b ∨ i = .mul a b ∨ i = .mli a b ∨ i = .div a b ∨ i = .dvi a b ∨
    i = .mod a b ∨ i = .and a b ∨ i = .bor a b ∨ i = .xor a b ∨ i = .shr a b ∨ i = .asr a b ∨ i = .shl a b

/-- Each of the fourteen runs the template of R100, without or with the EX side effect. -/
theorem exec_eq_template {i : Instr} {a : Dst} {b : Src} (h : WritesDst i a b) (s : State) :
    (∃ base f, exec i s = alu base f a b s) ∨ ∃ base f g, exec i s = aluEx base f g a b s := by
  cases i with
  | set c d =>
    obtain ⟨rfl, rfl⟩ : c = a ∧ d = b := by simpa [WritesDst] using h
    exact .inl ⟨_, _, exec_set_eq_alu c d s⟩
  | mod c d | and c d | bor c d | xor c d =>
    obtain ⟨rfl, rfl⟩ : c = a ∧ d = b := by simpa [WritesDst] using h
    exact .inl ⟨_, _, rfl⟩
  | add c d | sub c d | mul c d | mli c d | div c d | dvi c d | shr c d | asr c d | shl c d =>
    obtain ⟨rfl, rfl⟩ : c = a ∧ d = b := by simpa [WritesDst] using h
    exact .inr ⟨_, _, _, rfl⟩
  | _ => simp [WritesDst] at h

/-- With a literal as a, the template without the EX side effect only evaluates its operands. -/
theorem alu_lit (base : Nat) (f : Word → Word → Word) (b : Src) (s : State) :
    alu base f .lit b s = .next ((evalA .lit (evalB b s).2).2.charge (base + 1 + srcCost b)) := rfl

/-- With a literal as a, the template with the EX side effect evaluates its operands and writes EX. -/
theorem aluEx_lit (base : Nat) (f g : Word → Word → Word) (b : Src) (s : State) :
    aluEx base f g .lit b s =
      .next (((evalA .lit (evalB b s).2).2.setEx (g (dstValue .lit b s) (srcValue b s))).charge
        (base + 1 + srcCost b)) := rfl

/-- What one of the fourteen does to the state when a is a literal: the operands' own moves of PC and SP, and at most a write
of EX. -/
theorem exec_lit {i : Instr} {b : Src} (h : WritesDst i .lit b) (s : State) :
    ∃ ex n, exec i s =
      .next ((((s.setPc (s.pc + operandWords .lit b)).setSp (s.sp + srcSpMove b)).setEx ex).charge n) := by
  have hops : (evalA .lit (evalB b s).2).2 = (s.setPc (s.pc + operandWords .lit b)).setSp (s.sp + srcSpMove b) := by
    rw [evalBoth_snd, dstSpMove, BitVec.add_zero]
    rfl
  obtain ⟨base, f, e⟩ | ⟨base, f, g, e⟩ := exec_eq_template h s
  · exact ⟨s.ex, _, by rw [e, alu_lit, hops]; rfl⟩
  · exact ⟨_, _, by rw [e, aluEx_lit, hops]⟩

/-- Settles O39: the state `exec_lit` gives differs from `s` in PC, SP, EX and the cycles alone. -/
theorem literalDestinationDiscarded : Obligations.LiteralDestinationDiscarded := by
  intro i b s h
  obtain ⟨ex, n, e⟩ := exec_lit h s
  exact ⟨_, e, rfl, rfl, ⟨rfl, rfl, rfl⟩, rfl, rfl⟩

/-! ### The tables of value codes -/

/-- The codes from 0x20 on are the short literals, -1 to 30 (R82). -/
theorem decodeSrc_of_le {c : BitVec 6} (h : 0x20 ≤ c.toNat) :
    decodeSrc c = .short (BitVec.ofInt 16 ((c.toNat : Int) - 0x21)) := by
  revert c; decide

/-- Settles O12: each code below 0x20 is the code of its row's operand, whose evaluation is the row; the others are short
literals. -/
theorem sourceOperandTable : Obligations.SourceOperandTable := by
  intro s r
  have row (b : Src) (h : b.wf = true) : evalB (decodeSrc b.code) s = evalB b s := by rw [decodeSrc_code h]
  refine ⟨row (.reg r) rfl, row (.ind r) rfl, row (.idx r) rfl, row .pop rfl, row .peek rfl, row .pick rfl, row .sp rfl,
    row .pc rfl, row .ex rfl, row .mem rfl, row .lit rfl, fun c h => ?_⟩
  rw [decodeSrc_of_le h, evalB]

/-- Settles O13: each code is the code of its row's operand, whose evaluation is the row. -/
theorem destinationOperandTable : Obligations.DestinationOperandTable := by
  intro s r
  have row (a : Dst) : evalA (decodeDst a.code) s = evalA a s := by rw [decodeDst_code]
  exact ⟨row (.reg r), row (.ind r), row (.idx r), row .push, row .peek, row .pick, row .sp, row .pc, row .ex, row .mem,
    row .lit⟩

end Sys2Proof.Machine
end

section
/-! PROOF. The encoding of a basic instruction as its rule writes it (rule R52). -/

namespace Sys2Proof.Machine

/-- The word is `(b<<10) | (a<<5) | o`; with the opcode of an instruction this is its `EncodedAs`. -/
theorem basicWord_toNat (o : BitVec 5) (a : Dst) (b : Src) :
    (basicWord o a b).toNat = b.code.toNat <<< 10 ||| a.code.toNat <<< 5 ||| o.toNat := by
  simp only [basicWord, BitVec.toNat_append, Nat.shiftLeft_or_distrib, ← Nat.shiftLeft_add]

end Sys2Proof.Machine
end

section
/-! PROOF. The integers the results and EX values of the arithmetic instructions stand for (rules R102 to R108). -/

namespace Sys2Proof.Machine

/-! ### Unsigned arithmetic -/

theorem addResult_toNat (va vb : Word) : (addResult va vb).toNat = (va.toNat + vb.toNat) % 0x10000 :=
  BitVec.toNat_ofNat _ _

theorem addEx_toNat (va vb : Word) : (addEx va vb).toNat = (va.toNat + vb.toNat) / 0x10000 := by
  have ha := va.isLt
  have hb := vb.isLt
  unfold addEx
  split
  · rw [BitVec.toNat_ofNat]; omega
  · rw [BitVec.toNat_ofNat]; omega

theorem mulResult_toNat (va vb : Word) : (mulResult va vb).toNat = va.toNat * vb.toNat % 0x10000 :=
  BitVec.toNat_ofNat _ _

/-- The high word needs no wrap: the product of two words is below 2^32. -/
theorem mulEx_toNat (va vb : Word) : (mulEx va vb).toNat = va.toNat * vb.toNat / 0x10000 := by
  have hp : va.toNat * vb.toNat < 2 ^ 16 * 2 ^ 16 := Nat.mul_lt_mul'' va.isLt vb.isLt
  rw [mulEx, BitVec.toNat_ofNat, Nat.shiftRight_eq_div_pow]
  exact Nat.mod_eq_of_lt (Nat.div_lt_of_lt_mul hp)

/-- Also for the divisor 0, where division of natural numbers gives 0. -/
theorem divResult_toNat (va vb : Word) : (divResult va vb).toNat = va.toNat / vb.toNat := by
  unfold divResult
  split
  · next h => rw [h]; exact (Nat.div_zero _).symm
  · rw [BitVec.toNat_ofNat]
    exact Nat.mod_eq_of_lt (Nat.lt_of_le_of_lt (Nat.div_le_self _ _) va.isLt)

/-- Also for the divisor 0, where division of natural numbers gives 0. -/
theorem divEx_toNat (va vb : Word) : (divEx va vb).toNat = va.toNat * 0x10000 / vb.toNat % 0x10000 := by
  unfold divEx
  split
  · next h => rw [h]; simp
  · rw [BitVec.toNat_ofNat, Nat.shiftLeft_eq]

/-- Quotient and fraction word are the two words of the quotient of `va << 16` (R106). -/
theorem divResult_mul_add_divEx (va vb : Word) :
    (divResult va vb).toNat * 0x10000 + (divEx va vb).toNat = va.toNat * 0x10000 / vb.toNat := by
  have high : va.toNat * 0x10000 / vb.toNat / 0x10000 = va.toNat / vb.toNat := by
    rw [Nat.div_div_eq_div_mul, Nat.mul_div_mul_right _ _ (by decide)]
  rw [divResult_toNat, divEx_toNat, ← high]
  exact Nat.div_add_mod' _ _

theorem modResult_toNat (va : Word) {vb : Word} (h : vb ≠ 0) : (modResult va vb).toNat = va.toNat % vb.toNat := by
  have hres : modResult va vb = BitVec.ofNat 16 (va.toNat % vb.toNat) := if_neg h
  rw [hres, BitVec.toNat_ofNat]
  exact Nat.mod_eq_of_lt (Nat.lt_of_le_of_lt (Nat.mod_le _ _) va.isLt)

theorem shlEx_toNat (va vb : Word) : (shlEx va vb).toNat = va.toNat * 2 ^ vb.toNat / 0x10000 % 0x10000 := by
  rw [shlEx, BitVec.toNat_ofNat, Nat.shiftLeft_eq, Nat.shiftRight_eq_div_pow]

/-! ### Two words as one signed number -/

/-- The high and the low word of an integer that fits in 32 bits are together its two's complement pattern. -/
theorem toInt_ofInt_append {x : Int} (hlo : -0x80000000 ≤ x) (hhi : x < 0x80000000) :
    (BitVec.ofInt 16 (x / 0x10000) ++ BitVec.ofInt 16 x : BitVec 32).toInt = x := by
  have high : (BitVec.ofInt 16 (x / 0x10000)).toInt = x / 0x10000 :=
    BitVec.toInt_ofInt_eq_self (by decide) (by omega) (by omega)
  have low : ((BitVec.ofInt 16 x).toNat : Int) = x % 0x10000 := by
    rw [BitVec.toNat_ofInt]
    exact Int.toNat_of_nonneg (Int.emod_nonneg x (by decide))
  rw [BitVec.toInt_append, if_neg (by decide), high, low]
  exact Int.mul_ediv_add_emod x 0x10000

theorem subEx_eq (va vb : Word) : subEx va vb = BitVec.ofInt 16 (((va.toNat : Int) - vb.toNat) / 0x10000) := by
  have ha := va.isLt
  have hb := vb.isLt
  unfold subEx
  split
  · next h => rw [show ((va.toNat : Int) - vb.toNat) / 0x10000 = -1 by omega]; rfl
  · next h => rw [show ((va.toNat : Int) - vb.toNat) / 0x10000 = 0 by omega]; rfl

/-- EX is the high word of the 32-bit difference (R103). -/
theorem subEx_append_subResult (va vb : Word) :
    (subEx va vb ++ subResult va vb : BitVec 32).toInt = va.toNat - vb.toNat := by
  have ha := va.isLt
  have hb := vb.isLt
  rw [subEx_eq]
  exact toInt_ofInt_append (by omega) (by omega)

theorem subEx_eq_borrow_iff (va vb : Word) : subEx va vb = 0xffff#16 ↔ va.toNat < vb.toNat := by
  unfold subEx
  split
  · next h => exact iff_of_true rfl (by omega)
  · next h => exact iff_of_false (by decide) (by omega)

/-- The product of two signed words fits in 32 bits, with a bit to spare. -/
theorem toInt_mul_toInt_bounds (va vb : Word) :
    -0x40000000 ≤ va.toInt * vb.toInt ∧ va.toInt * vb.toInt ≤ 0x40000000 :=
  ⟨BitVec.le_toInt_mul_toInt, BitVec.toInt_mul_toInt_le⟩

theorem mliEx_toInt (va vb : Word) : (mliEx va vb).toInt = va.toInt * vb.toInt / 0x10000 := by
  obtain ⟨hlo, hhi⟩ := toInt_mul_toInt_bounds va vb
  rw [mliEx, Int.shiftRight_eq_div_pow]
  exact BitVec.toInt_ofInt_eq_self (by decide) (by omega) (by omega)

/-- EX and the result are the pattern of the signed product (R105). -/
theorem mliEx_append_mliResult (va vb : Word) :
    (mliEx va vb ++ mliResult va vb : BitVec 32).toInt = va.toInt * vb.toInt := by
  obtain ⟨hlo, hhi⟩ := toInt_mul_toInt_bounds va vb
  rw [mliEx, Int.shiftRight_eq_div_pow]
  exact toInt_ofInt_append (by omega) (by omega)

/-! ### Rounded signed quotients -/

theorem abs_tmod_lt (x : Int) {y : Int} (hy : y ≠ 0) : |x.tmod y| < |y| := by
  rw [Int.abs_eq_natAbs, Int.abs_eq_natAbs, Int.natAbs_tmod]
  exact_mod_cast Nat.mod_lt _ (Int.natAbs_pos.mpr hy)

/-- The rest of a truncated division has the sign of the dividend. -/
theorem tmod_mul_self_nonneg (x y : Int) : 0 ≤ x.tmod y * x := by
  obtain hx | hx := le_total 0 x
  · exact mul_nonneg (Int.tmod_nonneg y hx) hx
  · have hneg : 0 ≤ (-x).tmod y := Int.tmod_nonneg y (by omega)
    rw [Int.neg_tmod] at hneg
    exact mul_nonneg_of_nonpos_of_nonpos (by omega) hx

/-- The rest of a floor division has the sign of the divisor and is smaller than it. -/
theorem fmod_bounds (x : Int) {y : Int} (hy : y ≠ 0) : |x.fmod y| < |y| ∧ 0 ≤ x.fmod y * y := by
  obtain hpos | hneg := lt_or_gt_of_ne hy.symm
  · have h0 : 0 ≤ x.fmod y := Int.fmod_nonneg_of_pos x hpos
    have h1 : x.fmod y < y := Int.fmod_lt_of_pos x hpos
    exact ⟨by rwa [abs_of_nonneg h0, abs_of_pos hpos], mul_nonneg h0 hpos.le⟩
  · have h0 : 0 ≤ (-x).fmod (-y) := Int.fmod_nonneg_of_pos (-x) (by omega)
    have h1 : (-x).fmod (-y) < -y := Int.fmod_lt_of_pos (-x) (by omega)
    rw [Int.neg_fmod_neg] at h0 h1
    have hle : x.fmod y ≤ 0 := by omega
    exact ⟨by rwa [abs_of_nonpos hle, abs_of_neg hneg], mul_nonneg_of_nonpos_of_nonpos hle hneg.le⟩

/-- Both values of `DVI_ROUND` round as the parameter says (decision D11). -/
theorem roundedDiv_isRounded (r : Rounding) (x : Int) {y : Int} (hy : y ≠ 0) : IsRounded r x y (roundedDiv r x y) := by
  cases r with
  | towardZero =>
    have rest : x - x.tdiv y * y = x.tmod y := by rw [Int.tmod_def, Int.mul_comm y]
    rw [IsRounded, roundedDiv, rest]
    exact ⟨abs_tmod_lt x hy, tmod_mul_self_nonneg x y⟩
  | floor =>
    have rest : x - x.fdiv y * y = x.fmod y := by rw [Int.fmod_def, Int.mul_comm y]
    rw [IsRounded, roundedDiv, rest]
    exact fmod_bounds x hy

end Sys2Proof.Machine
end

section
/-! PROOF. SET and integer arithmetic (41_set_arith.md): the templates of rule R100 with what their functions compute. -/

namespace Sys2Proof.Machine

/-- Settles O15: SET is the template without an EX side effect. -/
theorem setWritesSource : Obligations.SetWritesSource := by
  intro a b s
  obtain ⟨t, ht, hv, -, hex, hcycles⟩ := alu_next 1 (fun _ vb => vb) a b s
  exact ⟨basicWord_toNat 0x01 a b, t, (exec_set_eq_alu a b s).trans ht, hv, hex, by omega⟩

/-- Settles O16: the sum and its carry. -/
theorem addWrapsAndCarries : Obligations.AddWrapsAndCarries := by
  intro a b s
  obtain ⟨t, ht, hv, -, hex, -⟩ := aluEx_next 2 addResult addEx a b s
  exact ⟨basicWord_toNat 0x02 a b, t, _, ht, addResult_toNat _ _, hv, hex ▸ addEx_toNat _ _⟩

/-- Settles O17: EX, the borrow, is the high word of the exact difference. -/
theorem subWrapsAndBorrows : Obligations.SubWrapsAndBorrows := by
  intro a b s
  obtain ⟨t, ht, hv, -, hex, -⟩ := aluEx_next 2 subResult subEx a b s
  exact ⟨basicWord_toNat 0x03 a b, t, _, ht, hv, hex ▸ subEx_append_subResult _ _, hex ▸ subEx_eq_borrow_iff _ _⟩

/-- Settles O18: the two words of the unsigned product. -/
theorem mulFullProduct : Obligations.MulFullProduct := by
  intro a b s
  obtain ⟨t, ht, hv, -, hex, hcycles⟩ := aluEx_next 2 mulResult mulEx a b s
  refine ⟨basicWord_toNat 0x04 a b, t, _, ht, fun hdst => ⟨hv hdst, ?_⟩, by omega⟩
  rw [hex, mulEx_toNat, mulResult_toNat]
  exact Nat.div_add_mod' _ _

/-- Settles O19: the two words of the signed product. -/
theorem mliFullProduct : Obligations.MliFullProduct := by
  intro a b s
  obtain ⟨t, ht, hv, -, hex, hcycles⟩ := aluEx_next 2 mliResult mliEx a b s
  exact ⟨basicWord_toNat 0x05 a b, t, _, ht, fun hdst => ⟨hv hdst, hex ▸ mliEx_append_mliResult _ _⟩, by omega⟩

/-- Settles O20: quotient and fraction, and 0 for both when the divisor is 0. -/
theorem divQuotientAndFraction : Obligations.DivQuotientAndFraction := by
  intro a b s
  obtain ⟨t, ht, hv, -, hex, hcycles⟩ := aluEx_next 3 divResult divEx a b s
  refine ⟨basicWord_toNat 0x06 a b, t, _, ht, fun hdst => ⟨hv hdst, fun hzero => ?_, fun _ => ?_⟩, by omega⟩
  · rw [hex, hzero]; exact ⟨rfl, rfl⟩
  · rw [hex]; exact divResult_mul_add_divEx _ _

/-- Settles O21: both words are wrapped quotients, rounded by `roundedDiv`, and 0 when the divisor is 0. -/
theorem dviRoundedQuotient : Obligations.DviRoundedQuotient := by
  intro a b s
  obtain ⟨t, ht, hv, -, hex, -⟩ := aluEx_next 3 (dviResult s.config.dviRound) (dviEx s.config.dviRound) a b s
  refine ⟨basicWord_toNat 0x07 a b, t, _, ht, hv, fun hzero => ?_, fun hne => ?_⟩
  · rw [hex, hzero]; exact ⟨rfl, rfl⟩
  · have hy : (srcValue b s).toInt ≠ 0 := BitVec.toInt_ne.mpr hne
    exact ⟨_, _, roundedDiv_isRounded _ _ hy, if_neg hne, roundedDiv_isRounded _ _ hy, hex.trans (if_neg hne)⟩

/-- Settles O22: MOD is the template without an EX side effect, and its result is the unsigned remainder. -/
theorem modRemainder : Obligations.ModRemainder := by
  intro a b s
  obtain ⟨t, ht, hv, -, hex, -⟩ := alu_next 3 modResult a b s
  refine ⟨basicWord_toNat 0x08 a b, t, _, ht, hv, hex, fun hzero => ?_, fun hne => ?_⟩
  · rw [hzero]; rfl
  · have hpos : 0 < (srcValue b s).toNat := by bv_omega
    rw [modResult_toNat _ hne]
    exact ⟨Nat.mod_lt _ hpos, _, (Nat.div_add_mod' _ _).symm⟩

/-- Settles O37: all fourteen run one of the two templates, and both have the frame. -/
theorem basicWriteFrame : Obligations.BasicWriteFrame := by
  intro i a b s t hi ht
  obtain ⟨base, f, e⟩ | ⟨base, f, g, e⟩ := exec_eq_template hi s
  · obtain ⟨u, hu, -, hframe, -⟩ := alu_next base f a b s
    exact of_exists_next ⟨u, e.trans hu, hframe⟩ ht
  · obtain ⟨u, hu, -, hframe, -⟩ := aluEx_next base f g a b s
    exact of_exists_next ⟨u, e.trans hu, hframe⟩ ht

/-! ### EX as destination (R109, decision D10) -/

theorem dstValue_ex (b : Src) (s : State) : dstValue .ex b s = s.ex := evalB_ex b s

/-- With EX as a, the template leaves the side effect there, computed from the old EX. -/
theorem aluEx_dst_ex (base : Nat) (f g : Word → Word → Word) (b : Src) (s : State) :
    ∃ t, aluEx base f g .ex b s = .next t ∧ t.ex = g s.ex (srcValue b s) := by
  obtain ⟨t, ht, -, -, hex, -⟩ := aluEx_next base f g .ex b s
  exact ⟨t, ht, dstValue_ex b s ▸ hex⟩

/-- Settles O40: the EX values of the five instructions, taken from the old EX. -/
theorem exDestinationSideEffectWins : Obligations.ExDestinationSideEffectWins := by
  intro b s
  obtain ⟨tmul, hmul, emul⟩ := aluEx_dst_ex 2 mulResult mulEx b s
  obtain ⟨tmli, hmli, emli⟩ := aluEx_dst_ex 2 mliResult mliEx b s
  obtain ⟨tdiv, hdiv, ediv⟩ := aluEx_dst_ex 3 divResult divEx b s
  obtain ⟨tadd, hadd, eadd⟩ := aluEx_dst_ex 2 addResult addEx b s
  obtain ⟨tshl, hshl, eshl⟩ := aluEx_dst_ex 2 shlResult shlEx b s
  refine ⟨⟨tmul, hmul, ?_⟩, ⟨tmli, hmli, ?_⟩, ⟨tdiv, hdiv, fun hzero => ?_, fun _ => ?_⟩, ⟨tadd, hadd, ?_⟩,
    ⟨tshl, hshl, ?_⟩⟩
  · rw [emul, mulEx_toNat]
  · rw [emli, mliEx_toInt]
    omega
  · rw [ediv, hzero]
    rfl
  · rw [ediv, divEx_toNat]
  · rw [eadd, addEx_toNat]
  · rw [eshl, shlEx_toNat]

end Sys2Proof.Machine
end

section
/-! PROOF. The words that the logic and shift instructions compute: the bits of AND, BOR and XOR (rules R120 to R122), and the
integers that the results and EX values of SHR, ASR and SHL stand for (rules R123 to R125). A shift count is any word
(R126, decision D13), so `2 ^ n` stays symbolic throughout. -/

namespace Sys2Proof.Machine

/-! ### Bits -/

theorem andResult_getLsbD_iff (va vb : Word) (k : Nat) :
    (andResult va vb).getLsbD k = true ↔ va.getLsbD k = true ∧ vb.getLsbD k = true := by
  rw [andResult, BitVec.getLsbD_and, Bool.and_eq_true]

theorem borResult_getLsbD_iff (va vb : Word) (k : Nat) :
    (borResult va vb).getLsbD k = true ↔ va.getLsbD k = true ∨ vb.getLsbD k = true := by
  rw [borResult, BitVec.getLsbD_or, Bool.or_eq_true]

theorem xorResult_getLsbD_iff (va vb : Word) (k : Nat) :
    (xorResult va vb).getLsbD k = true ↔ va.getLsbD k ≠ vb.getLsbD k := by
  rw [xorResult, BitVec.getLsbD_xor, bne_iff_ne]

/-! ### Two words as one unsigned number -/

/-- The words at bits 31:16 and 15:0 of a number are together its low 32 bits. -/
theorem ofNat_shiftRight_append (x : Nat) :
    (BitVec.ofNat 16 (x >>> 16) ++ BitVec.ofNat 16 x : BitVec 32) = BitVec.ofNat 32 x := by
  refine BitVec.eq_of_getLsbD_eq fun i hi => ?_
  rw [BitVec.getLsbD_append, BitVec.getLsbD_ofNat, BitVec.getLsbD_ofNat, BitVec.getLsbD_ofNat, Nat.testBit_shiftRight]
  split
  · next hlow => simp only [hlow, show i < 32 by omega]
  · next hhigh => simp only [show i - 16 < 16 by omega, show i < 32 by omega, show 16 + (i - 16) = i by omega]

/-! ### Shifts -/

theorem shrEx_toNat (va vb : Word) : (shrEx va vb).toNat = va.toNat * 0x10000 / 2 ^ vb.toNat % 0x10000 := by
  rw [shrEx, BitVec.toNat_ofNat, Nat.shiftLeft_eq, Nat.shiftRight_eq_div_pow]

/-- SHR's result is the high word of the pair whose low word EX takes: the shifts by `n` and by 16 commute. -/
theorem shrResult_eq_high (va vb : Word) :
    shrResult va vb = BitVec.ofNat 16 ((va.toNat <<< 16) >>> vb.toNat >>> 16) := by
  rw [shrResult, ← Nat.shiftRight_add, Nat.add_comm, Nat.shiftRight_add, Nat.shiftLeft_shiftRight]

/-- Result and EX are the pair `va << 16` shifted right, which needs no wrap (R123). -/
theorem shrResult_append_shrEx (va vb : Word) :
    (shrResult va vb ++ shrEx va vb : BitVec 32).toNat = va.toNat * 0x10000 / 2 ^ vb.toNat := by
  have ha := va.isLt
  have hle : va.toNat * 2 ^ 16 / 2 ^ vb.toNat ≤ va.toNat * 2 ^ 16 := Nat.div_le_self _ _
  rw [shrResult_eq_high, shrEx, ofNat_shiftRight_append, BitVec.toNat_ofNat, Nat.shiftLeft_eq, Nat.shiftRight_eq_div_pow]
  exact Nat.mod_eq_of_lt (by omega)

/-- ASR's result is the library's sign filling shift, and so the floor quotient (R124). -/
theorem asrResult_toInt (va vb : Word) : (asrResult va vb).toInt = va.toInt / 2 ^ vb.toNat := by
  rw [asrResult, ← BitVec.sshiftRight_eq, BitVec.toInt_sshiftRight, Int.shiftRight_eq_div_pow]
  push_cast
  rfl

/-- The two EX formulas are one (R124). -/
theorem asrEx_eq_shrEx (va vb : Word) : asrEx va vb = shrEx va vb := rfl

/-- EX and the result are the low 32 bits of the exact product (R125). -/
theorem shlEx_append_shlResult (va vb : Word) :
    (shlEx va vb ++ shlResult va vb : BitVec 32).toNat = va.toNat * 2 ^ vb.toNat % 0x100000000 := by
  rw [shlEx, shlResult, ofNat_shiftRight_append, BitVec.toNat_ofNat, Nat.shiftLeft_eq]

end Sys2Proof.Machine
end

section
/-! PROOF. Bitwise logic and shifts (42_logic_shift.md): the templates of rule R100 with what their functions compute. -/

namespace Sys2Proof.Machine

/-- An instruction without an EX side effect whose result has the property `P`: completion, result, EX and cost. -/
theorem alu_result_of {P : Word → Prop} (base : Nat) (f : Word → Word → Word) (a : Dst) (b : Src) (s : State)
    (h : P (f (dstValue a b s) (srcValue b s))) :
    ∃ t v, alu base f a b s = .next t ∧ Holds (dstLoc a b s) v t ∧ P v ∧
      (dstLoc a b s ≠ .ex → t.ex = s.ex) ∧ t.cycles = s.cycles + base + dstCost a + srcCost b := by
  obtain ⟨t, ht, hv, -, hex, hcycles⟩ := alu_next base f a b s
  exact ⟨t, _, ht, hv, h, hex, by omega⟩

/-- Settles O23: the three run the template without an EX side effect, on their bits. -/
theorem bitwiseResults : Obligations.BitwiseResults := by
  intro a b s
  exact ⟨
    ⟨basicWord_toNat 0x09 a b, alu_result_of 1 andResult a b s fun k _ => andResult_getLsbD_iff _ _ k⟩,
    ⟨basicWord_toNat 0x0a a b, alu_result_of 1 borResult a b s fun k _ => borResult_getLsbD_iff _ _ k⟩,
    ⟨basicWord_toNat 0x0b a b, alu_result_of 1 xorResult a b s fun k _ => xorResult_getLsbD_iff _ _ k⟩⟩

/-- Settles O24: result and EX are the shifted pair. -/
theorem shrShiftsPair : Obligations.ShrShiftsPair := by
  intro a b s
  obtain ⟨t, ht, hv, -, hex, -⟩ := aluEx_next 2 shrResult shrEx a b s
  exact ⟨basicWord_toNat 0x0c a b, t, _, ht, hv, hex ▸ shrResult_append_shrEx _ _⟩

/-- Settles O25: the result fills with the sign, and EX is SHR's. -/
theorem asrFillsSign : Obligations.AsrFillsSign := by
  intro a b s
  obtain ⟨t, ht, hv, -, hex, -⟩ := aluEx_next 2 asrResult asrEx a b s
  refine ⟨basicWord_toNat 0x0d a b, t, _, ht, hv, asrResult_toInt _ _, ?_⟩
  rw [hex, asrEx_eq_shrEx, shrEx_toNat]

/-- Settles O26: EX and result are the low words of the exact product. -/
theorem shlShiftsPair : Obligations.ShlShiftsPair := by
  intro a b s
  obtain ⟨t, ht, hv, -, hex, -⟩ := aluEx_next 2 shlResult shlEx a b s
  exact ⟨basicWord_toNat 0x0e a b, t, _, ht, hv, hex ▸ shlEx_append_shlResult _ _⟩

end Sys2Proof.Machine
end

section
/-! PROOF. The conditionals (43_conditional.md): the next state of rule R140 where the test holds and where it fails, and the
seven tests of rules R141 to R147. -/

namespace Sys2Proof.Machine

/-! ### The tests -/

@[simp] theorem testIfb_iff (va vb : Word) : testIfb va vb = true ↔ va &&& vb ≠ 0#16 := decide_eq_true_iff
@[simp] theorem testIfe_iff (va vb : Word) : testIfe va vb = true ↔ va = vb := decide_eq_true_iff
@[simp] theorem testIfn_iff (va vb : Word) : testIfn va vb = true ↔ va ≠ vb := decide_eq_true_iff
@[simp] theorem testIfg_iff (va vb : Word) : testIfg va vb = true ↔ va.toInt > vb.toInt := decide_eq_true_iff
@[simp] theorem testIfa_iff (va vb : Word) : testIfa va vb = true ↔ va.toNat > vb.toNat := decide_eq_true_iff
@[simp] theorem testIfl_iff (va vb : Word) : testIfl va vb = true ↔ va.toInt < vb.toInt := decide_eq_true_iff
@[simp] theorem testIfu_iff (va vb : Word) : testIfu va vb = true ↔ va.toNat < vb.toNat := decide_eq_true_iff

/-! ### The shape of rule R140 -/

/-- A skip moves PC: it is one to three words long. -/
theorem add_len_ne_self (pc w : Word) : pc + BitVec.ofNat 16 (len w) ≠ pc := by
  obtain ⟨hpos, hle⟩ := len_bounds w
  bv_omega

variable {test : Word → Word → Bool} {a : Dst} {b : Src} {s : State}

/-- Where its test holds, a conditional leaves PC past its own next words. -/
theorem conditional_performs (h : test (dstValue a b s) (srcValue b s) = true) :
    conditional test a b s =
      .next (((s.setPc (s.pc + operandWords a b)).setSp (s.sp + srcSpMove b + dstSpMove a)).charge
        (2 + dstCost a + srcCost b)) := by
  rw [conditional_holds h, evalBoth_snd, operandWords]

/-- Where its test fails, a conditional leaves PC past its own next words and past the instruction there (R148, decision
D16). -/
theorem conditional_skips (h : test (dstValue a b s) (srcValue b s) = false) :
    conditional test a b s =
      .next (((s.setPc (s.pc + operandWords a b + BitVec.ofNat 16 (len (s.read (s.pc + operandWords a b))))).setSp
        (s.sp + srcSpMove b + dstSpMove a)).charge (3 + dstCost a + srcCost b)) := by
  rw [conditional_fails h, evalBoth_snd]
  rfl

/-- Whatever its test says, a conditional only sets PC, lets its operands move SP, and counts cycles. -/
theorem conditional_eq_next (test : Word → Word → Bool) (a : Dst) (b : Src) (s : State) :
    ∃ pc n, conditional test a b s =
      .next (((s.setPc pc).setSp (s.sp + srcSpMove b + dstSpMove a)).charge n) := by
  cases h : test (dstValue a b s) (srcValue b s) with
  | true => exact ⟨_, _, conditional_performs h⟩
  | false => exact ⟨_, _, conditional_skips h⟩

/-- PC is just past a conditional exactly when its test holds, since no skip is empty. -/
theorem conditional_pc_iff {P : Prop} (h : test (dstValue a b s) (srcValue b s) = true ↔ P) :
    ∃ t, conditional test a b s = .next t ∧ (t.pc = s.pc + operandWords a b ↔ P) := by
  cases htest : test (dstValue a b s) (srcValue b s) with
  | true => exact ⟨_, conditional_performs htest, iff_of_true rfl (h.mp htest)⟩
  | false =>
    have hP : ¬ P := fun p => Bool.false_ne_true (htest.symm.trans (h.mpr p))
    exact ⟨_, conditional_skips htest, iff_of_false (add_len_ne_self _ _) hP⟩

/-! ### The seven conditionals -/

/-- `i` is one of the seven conditionals, with operands `a` and `b`. -/
def IsConditional (i : Instr) (a : Dst) (b : Src) : Prop :=
  i = .ifb a b ∨ i = .ife a b ∨ i = .ifn a b ∨ i = .ifg a b ∨ i = .ifa a b ∨ i = .ifl a b ∨ i = .ifu a b

/-- Each of the seven has the shape of R140, and writes PC, in the sense of R14, where its test fails. -/
theorem exec_eq_conditional {i : Instr} (h : IsConditional i a b) (s : State) :
    ∃ test, exec i s = conditional test a b s ∧ (WritesPc i s ↔ ¬ test (dstValue a b s) (srcValue b s) = true) := by
  obtain rfl | rfl | rfl | rfl | rfl | rfl | rfl := h
  · exact ⟨testIfb, rfl, by simp [WritesPc]⟩
  · exact ⟨testIfe, rfl, by simp [WritesPc]⟩
  · exact ⟨testIfn, rfl, by simp [WritesPc]⟩
  · exact ⟨testIfg, rfl, by simp [WritesPc]⟩
  · exact ⟨testIfa, rfl, by simp [WritesPc]⟩
  · exact ⟨testIfl, rfl, by simp [WritesPc]⟩
  · exact ⟨testIfu, rfl, by simp [WritesPc]⟩

end Sys2Proof.Machine
end

section
/-! PROOF. The statements about the conditionals (43_conditional.md). -/

namespace Sys2Proof.Machine

/-- Settles O27: each of the seven is the shape of R140 with its own test. -/
theorem conditionalTests : Obligations.ConditionalTests := by
  intro a b s
  exact ⟨
    ⟨basicWord_toNat 0x11 a b, conditional_pc_iff (testIfb_iff _ _)⟩,
    ⟨basicWord_toNat 0x12 a b, conditional_pc_iff (testIfe_iff _ _)⟩,
    ⟨basicWord_toNat 0x13 a b, conditional_pc_iff (testIfn_iff _ _)⟩,
    ⟨basicWord_toNat 0x14 a b, conditional_pc_iff (testIfg_iff _ _)⟩,
    ⟨basicWord_toNat 0x15 a b, conditional_pc_iff (testIfa_iff _ _)⟩,
    ⟨basicWord_toNat 0x16 a b, conditional_pc_iff (testIfl_iff _ _)⟩,
    ⟨basicWord_toNat 0x17 a b, conditional_pc_iff (testIfu_iff _ _)⟩⟩

/-- Settles O28: a conditional that writes PC is one whose test fails, and its next state is that of the skip. -/
theorem failingTestSkipsOneInstruction : Obligations.FailingTestSkipsOneInstruction := by
  intro i a b s hi hwrites
  obtain ⟨test, e, hfails⟩ := exec_eq_conditional hi s
  have htest : test (dstValue a b s) (srcValue b s) = false := Bool.eq_false_iff.mpr (hfails.mp hwrites)
  refine ⟨_, e.trans (conditional_skips htest), rfl, ?_⟩
  simp only [State.charge_cycles, State.setSp_cycles, State.setPc_cycles, Nat.add_assoc]

/-- Settles O29: the state `conditional_eq_next` gives differs from `s` in PC, SP and the cycles alone. -/
theorem conditionalFrame : Obligations.ConditionalFrame := by
  intro i a b s hi
  obtain ⟨test, e, -⟩ := exec_eq_conditional hi s
  obtain ⟨pc, n, hnext⟩ := conditional_eq_next test a b s
  exact ⟨_, e.trans hnext, rfl, rfl, rfl, ⟨rfl, rfl, rfl⟩, rfl⟩

end Sys2Proof.Machine
end

section
/-! PROOF. The special format as its rules write it (rule R53), the evaluated operand of a special instruction (rule R89), the
stack (rule R74), and interrupt entry (rule R184) where a handler is called and where none is. -/

namespace Sys2Proof.Machine

/-! ### The special format -/

/-- The word is `(a<<11) | (s<<4)`; with the special opcode of an instruction this is its `EncodedAsSpecial`. -/
theorem specialWord_toNat (o : BitVec 7) (a : Dst) :
    (specialWord o a.code).toNat = a.code.toNat <<< 11 ||| o.toNat <<< 4 := by
  simp only [specialWord, BitVec.toNat_append, Nat.shiftLeft_or_distrib, ← Nat.shiftLeft_add, BitVec.toNat_zero,
    Nat.or_zero]

/-! ### The evaluated operand -/

@[simp] theorem evalA_sp (a : Dst) (s : State) : (evalA a s).2.sp = s.sp + dstSpMove a := by rw [evalA_snd]; rfl
@[simp] theorem evalA_regs (a : Dst) (s : State) : (evalA a s).2.regs = s.regs := by rw [evalA_snd]; rfl
@[simp] theorem evalA_extIrq (a : Dst) (s : State) : (evalA a s).2.extIrq = s.extIrq := by rw [evalA_snd]; rfl

/-! ### One push -/

theorem State.read_push_same (s : State) (v : Word) : (s.push v).read (s.sp - 1) = v := State.read_store_same _ _ _

theorem State.read_push_ne (s : State) (v : Word) {addr : Word} (h : addr ≠ s.sp - 1) :
    (s.push v).read addr = s.read addr := State.read_store_ne (s.setSp (s.sp - 1)) v h

/-! ### Interrupt entry -/

/-- Entry to a handler, seen from the new SP: the number, the argument and the old PC stand there, and the rest of RAM is as
before. -/
theorem interrupt_taken_stack {s : State} (h : s.ifFlag = true) (hh : s.read s.config.ivec ≠ noHandler) (n arg : Word) :
    (interrupt n arg s).sp = s.sp - 3 ∧
    (interrupt n arg s).read (interrupt n arg s).sp = n ∧
    (interrupt n arg s).read ((interrupt n arg s).sp + 1) = arg ∧
    (interrupt n arg s).read ((interrupt n arg s).sp + 2) = s.pc ∧
    ∀ addr, addr ≠ (interrupt n arg s).sp → addr ≠ (interrupt n arg s).sp + 1 → addr ≠ (interrupt n arg s).sp + 2 →
      (interrupt n arg s).read addr = s.read addr := by
  obtain ⟨hsp, hn, harg, hpc, hframe⟩ := push3 (s.setCr (s.cr &&& 0xfffe#16)) s.pc arg n
  have hsp' : (interrupt n arg s).sp = s.sp - 3 := by rw [interrupt_taken h hh]; exact hsp
  have e1 : s.sp - 3 + 1 = s.sp - 2 := by bv_omega
  have e2 : s.sp - 3 + 2 = s.sp - 1 := by bv_omega
  rw [hsp', e1, e2, interrupt_taken h hh]
  exact ⟨rfl, hn, harg, hpc, fun addr h0 h1 h2 => hframe addr h2 h1 h0⟩

/-- An interrupt that calls no handler leaves IF 0 and changes nothing else but the cycles, whether it was masked or not. -/
theorem interrupt_of_no_call {s : State} (h : s.ifFlag = false ∨ s.read s.config.ivec = noHandler) (n arg : Word) :
    ∃ c, interrupt n arg s = (s.setCr (s.cr &&& 0xfffe#16)).charge c := by
  obtain ⟨hif, e⟩ | ⟨-, -, e⟩ | ⟨hif, hh, -⟩ := interrupt_cases n arg s
  · have hcr : s.cr &&& 0xfffe#16 = s.cr := by rw [← interrupt_cr n arg s, e, State.charge_cr]
    exact ⟨_, by rw [hcr, e]; rfl⟩
  · exact ⟨_, e⟩
  · exact absurd h (by simp [hif, hh])

end Sys2Proof.Machine
end

section
/-! PROOF. The special instructions (44_special.md): the next state of each, and the statements about them. -/

namespace Sys2Proof.Machine

/-! ### Calls -/

/-- R161. -/
theorem exec_jsr (a : Dst) (s : State) : exec (.jsr a) s =
    .next ((((s.setSp (s.sp + dstSpMove a)).push (s.pc + BitVec.ofNat 16 a.nextWords)).setPc (opValue a s)).charge
      (2 + dstCost a)) := by
  change Host.Outcome.next
    ((((evalA a s).2.push (evalA a s).2.pc).setPc (opValue a s)).charge (2 + dstCost a)) = _
  rw [evalA_snd]
  rfl

/-- R64: the return idiom `SET PC, POP`. -/
theorem exec_set_pc_pop (s : State) :
    exec (.set .pc .pop) s = .next (((s.setSp (s.sp + 1)).setPc (s.read s.sp)).charge 1) := rfl

/-- Settles O30: the one word JSR stores is the return address, at the new SP. -/
theorem jsrPushesReturnAddress : Obligations.JsrPushesReturnAddress := by
  intro a s
  refine ⟨specialWord_toNat 0x01 a, _, exec_jsr a s, rfl, rfl, ?_, fun addr h => ?_, rfl, rfl, ⟨rfl, rfl, rfl⟩, ?_⟩
  · exact State.read_push_same _ _
  · exact State.read_push_ne _ _ h
  · exact (Nat.add_assoc _ _ _).symm

/-- Settles O31: the return pops the word the call pushed. -/
theorem returnFollowsCall : Obligations.ReturnFollowsCall := by
  intro a s
  refine ⟨_, _, exec_jsr a s, exec_set_pc_pop _, ?_, ?_, rfl, rfl⟩
  · exact State.read_push_same _ _
  · exact BitVec.sub_add_cancel _ _

/-! ### INT -/

/-- R162. -/
theorem exec_int (a : Dst) (s : State) : exec (.int a) s =
    .next ((interrupt (opValue a s) 0 (evalA a s).2).charge (s.config.specialCost.int + dstCost a)) := rfl

/-- Settles O32: interrupt entry from the state the operand leaves, where IF and the handler word are those of `s`. -/
theorem intEntersHandler : Obligations.IntEntersHandler := by
  intro a s hif hh
  have hif' : (evalA a s).2.ifFlag = true := by rw [evalA_ifFlag, hif]
  have hh' : (evalA a s).2.read (evalA a s).2.config.ivec ≠ noHandler := by rwa [evalA_read, evalA_config]
  obtain ⟨hsp, hn, harg, hpc, hframe⟩ := interrupt_taken_stack hif' hh' (opValue a s) 0
  rw [evalA_sp] at hsp
  rw [evalA_pc] at hpc
  refine ⟨specialWord_toNat 0x02 a, _, exec_int a s, ?_, hsp, hn, harg, hpc,
    fun addr h0 h1 h2 => (hframe addr h0 h1 h2).trans (evalA_read a s addr), ?_,
    (interrupt_regs _ _ _).trans (evalA_regs a s), (interrupt_ex _ _ _).trans (evalA_ex a s),
    (interrupt_extIrq _ _ _).trans (evalA_extIrq a s), (interrupt_config _ _ _).trans (evalA_config a s)⟩
  · rw [interrupt_taken hif' hh']; simp
  · rw [State.charge_cr, interrupt_cr, evalA_cr, clearBit0_of_set hif]; rfl

/-- Settles O33: an interrupt without a call, from the state the operand leaves. -/
theorem intWithoutHandlerContinues : Obligations.IntWithoutHandlerContinues := by
  intro a s h
  have h' : (evalA a s).2.ifFlag = false ∨ (evalA a s).2.read (evalA a s).2.config.ivec = noHandler := by simpa using h
  obtain ⟨c, e⟩ := interrupt_of_no_call h' (opValue a s) 0
  have hexec := exec_int a s
  rw [e] at hexec
  refine ⟨_, hexec, evalA_pc a s, evalA_sp a s, evalA_mem a s, evalA_regs a s, evalA_ex a s, evalA_extIrq a s,
    evalA_config a s, ?_⟩
  rw [State.charge_cr, State.charge_cr, State.setCr_cr, evalA_cr, clearBit0_toNat]

/-! ### CR -/

/-- LCR is the template of R100 with CR as its result and a source that moves nothing and costs nothing. -/
theorem exec_lcr_eq_alu (a : Dst) (s : State) :
    exec (.lcr a) s = alu s.config.specialCost.lcr (fun _ _ => s.cr) a (.short 0) s := by
  change Host.Outcome.next
    ((writeLoc (opLoc a s) (evalA a s).2.cr (evalA a s).2).charge (s.config.specialCost.lcr + dstCost a)) = _
  rw [evalA_cr]
  rfl

/-- R166. -/
theorem exec_scr (a : Dst) (s : State) : exec (.scr a) s =
    .next (((evalA a s).2.setCr (opValue a s)).charge (s.config.specialCost.scr + dstCost a)) := rfl

/-- Settles O35: LCR has the destination and the frame of the template. -/
theorem lcrDeliversCr : Obligations.LcrDeliversCr := by
  intro a s
  obtain ⟨t, ht, hv, ⟨hregs, hram, hctl, hsp, hpc⟩, hex, -⟩ :=
    alu_next s.config.specialCost.lcr (fun _ _ => s.cr) a (.short 0) s
  refine ⟨specialWord_toNat 0x05 a, t, (exec_lcr_eq_alu a s).trans ht, hv, hregs, hram, hctl, hex, fun h => ?_,
    fun h => ?_⟩
  · simpa [srcSpMove] using hsp h
  · simpa [operandWords, Src.nextWords] using hpc h

/-- Settles O36: SCR is a write of CR after the operand's own moves of SP and PC. -/
theorem scrStoresCr : Obligations.ScrStoresCr := by
  intro a s
  exact ⟨specialWord_toNat 0x06 a, _, exec_scr a s, rfl, evalA_regs a s, evalA_mem a s, evalA_ex a s, evalA_sp a s,
    evalA_pc a s, evalA_extIrq a s, evalA_config a s⟩

/-- Settles O34: bit 0 of CR is cleared or set, its other bits are kept, and no other field is written. -/
theorem cliStiWriteIfOnly : Obligations.CliStiWriteIfOnly := by
  intro s
  refine ⟨rfl, rfl, ⟨_, rfl, ?_, fun k _ => getLsbD_clearBit0_of_pos _ (Nat.le_add_left 1 k), rfl⟩,
    ⟨_, rfl, ?_, fun k _ => getLsbD_setBit0_of_pos _ (Nat.le_add_left 1 k), rfl⟩⟩
  · simp [State.ifFlag]
  · simp [State.ifFlag]

end Sys2Proof.Machine
end

section
/-! PROOF. Every instruction completes with the machine's parameters as they were (rules R5, R180, R196), so a step stops on
reserved words alone (R192) and never changes the parameters. -/

namespace Sys2Proof.Machine

/-! ### Every instruction answers a next state, with the parameters it met -/

theorem alu_config (base : Nat) (f : Word → Word → Word) (a : Dst) (b : Src) (s : State) :
    ∃ t, alu base f a b s = .next t ∧ t.config = s.config := by
  obtain ⟨t, ht, -, ⟨-, -, ⟨-, -, hconfig⟩, -⟩, -⟩ := alu_next base f a b s
  exact ⟨t, ht, hconfig⟩

theorem aluEx_config (base : Nat) (f g : Word → Word → Word) (a : Dst) (b : Src) (s : State) :
    ∃ t, aluEx base f g a b s = .next t ∧ t.config = s.config := by
  obtain ⟨t, ht, -, ⟨-, -, ⟨-, -, hconfig⟩, -⟩, -⟩ := aluEx_next base f g a b s
  exact ⟨t, ht, hconfig⟩

theorem conditional_config (test : Word → Word → Bool) (a : Dst) (b : Src) (s : State) :
    ∃ t, conditional test a b s = .next t ∧ t.config = s.config := by
  obtain ⟨pc, n, h⟩ := conditional_eq_next test a b s
  exact ⟨_, h, rfl⟩

theorem exec_config (i : Instr) (s : State) : ∃ t, exec i s = .next t ∧ t.config = s.config := by
  cases i with
  | set a b => rw [exec_set_eq_alu]; exact alu_config _ _ a b s
  | mod a b | and a b | bor a b | xor a b => exact alu_config _ _ a b s
  | add a b | sub a b | mul a b | mli a b | div a b | dvi a b | shr a b | asr a b | shl a b =>
    exact aluEx_config _ _ _ a b s
  | ifb a b | ife a b | ifn a b | ifg a b | ifa a b | ifl a b | ifu a b => exact conditional_config _ a b s
  | jsr a => exact ⟨_, exec_jsr a s, rfl⟩
  | int a => exact ⟨_, exec_int a s, (interrupt_config _ _ _).trans (evalA_config a s)⟩
  | lcr a => exact ⟨_, rfl, (writeLoc_config _ _ _).trans (evalA_config a s)⟩
  | scr a => exact ⟨_, exec_scr a s, evalA_config a s⟩
  | cli | sti => exact ⟨_, rfl, rfl⟩

theorem exec_completes (i : Instr) (s : State) : ∃ t, exec i s = .next t := by
  obtain ⟨t, ht, -⟩ := exec_config i s
  exact ⟨t, ht⟩

/-! ### A step -/

/-- Settles O10: a first word that decodes runs its instruction, which completes, and any other is the fault. -/
theorem everyInstructionCompletes : Obligations.EveryInstructionCompletes := by
  refine ⟨exec_completes, fun s => ?_⟩
  cases hdecode : decode (fetch (boundary s)).1 with
  | ok i =>
    obtain ⟨t, ht⟩ := exec_completes i (fetch (boundary s)).2
    exact .inl ⟨t, (step_of_decode hdecode).trans ht⟩
  | error why => exact .inr ⟨why, hdecode, step_of_reserved hdecode⟩

/-- Settles O50: neither the boundary nor the fetch nor the instruction changes the parameters. -/
theorem parametersNeverChange : Obligations.ParametersNeverChange := by
  intro c s t hs hstep
  obtain ⟨i, -, hexec⟩ := exists_exec_of_step hstep
  calc t.config = (fetch (boundary s)).2.config := of_exists_next (exec_config i _) hexec
    _ = s.config := boundary_config s
    _ = c := hs

end Sys2Proof.Machine
end

section
/-! PROOF. Interrupt entry (rules R184 to R187) and a handler's way back (R189). -/

namespace Sys2Proof.Machine

/-! ### Entry -/

/-- Settles O41: the stack of `interrupt_taken_stack`. -/
theorem handlerStackFrame : Obligations.HandlerStackFrame := by
  intro n arg s hif hh
  obtain ⟨-, hn, harg, hpc, -⟩ := interrupt_taken_stack hif hh n arg
  exact ⟨hn, harg, hpc⟩

/-- Settles O42: CR, the registers and EX are alike on both outcomes with IF = 1; SP and RAM are those of the three pushes
where a handler is called. -/
theorem interruptEntryEffect : Obligations.InterruptEntryEffect := by
  intro n arg s hif
  refine ⟨(interrupt_cr n arg s).trans (clearBit0_of_set hif), interrupt_regs n arg s, interrupt_ex n arg s,
    fun hnone => ?_, fun hh => ?_⟩
  · rw [interrupt_noHandler hif hnone]
    exact ⟨rfl, rfl, rfl⟩
  · obtain ⟨hsp, -, -, -, hframe⟩ := push3 (s.setCr (s.cr &&& 0xfffe#16)) s.pc arg n
    rw [interrupt_taken hif hh]
    exact ⟨rfl, hsp, hframe⟩

/-- Settles O43: all three are the masked outcome of interrupt entry; for INT, in the state the operand leaves. -/
theorem maskedInterruptIsLost : Obligations.MaskedInterruptIsLost := by
  intro s hif
  refine ⟨fun n arg => ⟨_, interrupt_masked hif⟩, fun q hq => ?_, fun a => ?_⟩
  · have hboundary := boundary_of_event_some hq
    rw [interrupt_masked hif] at hboundary
    exact ⟨_, hboundary⟩
  · have hif' : (evalA a s).2.ifFlag = false := (evalA_ifFlag a s).trans hif
    have hexec := exec_int a s
    rw [interrupt_masked hif'] at hexec
    exact ⟨_, hexec⟩

/-! ### The way back -/

theorem execAll_cons_of_next {i : Instr} {s t : State} (h : exec i s = .next t) (is : List Instr) :
    execAll (i :: is) s = execAll is t := by
  simp only [execAll, h]

/-- R164. -/
theorem exec_sti (s : State) :
    exec .sti s = .next ((s.setCr (s.cr ||| 0x0001#16)).charge s.config.specialCost.sti) := rfl

/-- R102 with SP as a and a short literal as b. -/
theorem exec_add_sp_short (v : Word) (s : State) :
    exec (.add .sp (.short v)) s = .next (((s.setSp (s.sp + v)).setEx (addEx s.sp v)).charge 2) := rfl

/-- What the exit of R189 does in any state: it takes PC from the third word of the stack and leaves the stack empty of all
three, sets IF, and leaves in EX the carry of `ADD SP, 2`. -/
theorem execAll_handlerExit (s : State) :
    ∃ t, execAll handlerExit s = .next t ∧ t.pc = s.read (s.sp + 2) ∧ t.sp = s.sp + 3 ∧ t.cr = s.cr ||| 0x0001#16 ∧
      t.regs = s.regs ∧ t.ex = addEx s.sp 2 ∧ t.mem = s.mem := by
  have hrun := calc execAll handlerExit s
    _ = execAll [.sti, .set .pc .pop] _ := execAll_cons_of_next (exec_add_sp_short 2 s) _
    _ = execAll [.set .pc .pop] _ := execAll_cons_of_next (exec_sti _) _
    _ = execAll [] _ := execAll_cons_of_next (exec_set_pc_pop _) _
  have hsp : s.sp + 2 + 1 = s.sp + 3 := BitVec.add_assoc s.sp 2 1
  refine ⟨_, hrun, ?_⟩
  simpa using hsp

/-- Setting IF again undoes the clearing of it. -/
theorem setBit0_clearBit0_of_set {v : Word} (h : v.getLsbD 0 = true) : v &&& 0xfffe#16 ||| 0x0001#16 = v := by
  refine BitVec.eq_of_getLsbD_eq fun k _ => ?_
  cases k with
  | zero => simp [h]
  | succ k =>
    have hpos : 1 ≤ k + 1 := Nat.le_add_left 1 k
    rw [getLsbD_setBit0_of_pos _ hpos, getLsbD_clearBit0_of_pos _ hpos]

/-- Taking two of three pushed words off the stack carries exactly where SP was 1 or 2 before the pushes. -/
theorem addEx_sub_three_two (sp : Word) : addEx (sp - 3) 2 = if sp = 1 ∨ sp = 2 then 1 else 0 := by
  have hcarry : (sp - 3).toNat + (2#16).toNat > 0xffff ↔ sp = 1 ∨ sp = 2 := by bv_omega
  exact if_congr hcarry rfl rfl

/-- Settles O45: the exit of R189 from the stack frame of R185. -/
theorem handlerExitReturns : Obligations.HandlerExitReturns := by
  intro n arg s hif hh
  obtain ⟨-, hregs, -, -, hcall⟩ := interruptEntryEffect n arg s hif
  obtain ⟨-, hsp, hframe⟩ := hcall hh
  obtain ⟨-, -, hreturn⟩ := handlerStackFrame n arg s hif hh
  obtain ⟨t, ht, htpc, htsp, htcr, htregs, htex, htmem⟩ := execAll_handlerExit (interrupt n arg s)
  refine ⟨t, ht, htpc.trans hreturn, ?_, ?_, htregs.trans hregs, ?_, fun addr h1 h2 h3 => ?_⟩
  · rw [htsp, hsp, BitVec.sub_add_cancel]
  · rw [htcr, interrupt_cr, setBit0_clearBit0_of_set hif]
  · rw [htex, hsp, addEx_sub_three_two]
  · rw [State.read, htmem]
    exact hframe addr h1 h2 h3

end Sys2Proof.Machine
end

section
/-! PROOF. Timing is invisible (70_reset_and_hazards.md section 4): every part of a step commutes with a change of the cycles
counted and of `SPECIAL_COST`, but for the cycles that are counted afterwards. -/

namespace Sys2Proof.Machine

/-- The state with other special costs and another count of cycles. -/
def State.withTiming (s : State) (c : SpecialCost) (n : Nat) : State :=
  { s with config := { s.config with specialCost := c }, cycles := n }

/-- To agree on all but timing is to differ by a change of timing. -/
theorem sameButTiming_iff {s s' : State} : SameButTiming s s' ↔ ∃ c n, s' = s.withTiming c n := by
  constructor
  · obtain ⟨_, _, _, _, _, _, _, ⟨_, _, _⟩, _⟩ := s
    obtain ⟨_, _, _, _, _, _, _, ⟨_, _, c⟩, n⟩ := s'
    rintro ⟨rfl, rfl, rfl, rfl, rfl, rfl, rfl, rfl, rfl⟩
    exact ⟨c, n, rfl⟩
  · rintro ⟨c, n, rfl⟩
    exact ⟨rfl, rfl, rfl, rfl, rfl, rfl, rfl, rfl, rfl⟩

theorem sameButTiming_withTiming (s : State) (c : SpecialCost) (n : Nat) : SameButTiming s (s.withTiming c n) :=
  sameButTiming_iff.mpr ⟨c, n, rfl⟩

/-! ### The parts of an instruction -/

theorem evalB_withTiming (b : Src) (s : State) (c : SpecialCost) (n : Nat) :
    evalB b (s.withTiming c n) = ((evalB b s).1, (evalB b s).2.withTiming c n) := by
  cases b <;> rfl

theorem evalA_withTiming (a : Dst) (s : State) (c : SpecialCost) (n : Nat) :
    evalA a (s.withTiming c n) = ((evalA a s).1, (evalA a s).2.withTiming c n) := by
  cases a <;> rfl

theorem readLoc_withTiming (l : Loc) (s : State) (c : SpecialCost) (n : Nat) :
    readLoc l (s.withTiming c n) = readLoc l s := by
  cases l <;> rfl

theorem writeLoc_withTiming (l : Loc) (v : Word) (s : State) (c : SpecialCost) (n : Nat) :
    writeLoc l v (s.withTiming c n) = (writeLoc l v s).withTiming c n := by
  cases l <;> rfl

theorem opValue_withTiming (a : Dst) (s : State) (c : SpecialCost) (n : Nat) :
    opValue a (s.withTiming c n) = opValue a s := by
  simp only [opValue, opLoc, evalA_withTiming, readLoc_withTiming]

/-- Interrupt entry takes the same of its three outcomes. -/
theorem interrupt_withTiming (number arg : Word) (s : State) (c : SpecialCost) (n : Nat) :
    ∃ m, interrupt number arg (s.withTiming c n) = (interrupt number arg s).withTiming c m := by
  obtain ⟨hif, e⟩ | ⟨hif, hh, e⟩ | ⟨hif, hh, e⟩ := interrupt_cases number arg s <;> rw [e]
  · exact ⟨_, interrupt_masked hif⟩
  · exact ⟨_, interrupt_noHandler hif hh⟩
  · exact ⟨_, interrupt_taken hif hh⟩

/-! ### Every instruction -/

theorem alu_withTiming (base : Nat) (f : Word → Word → Word) (a : Dst) (b : Src) (s : State) (c : SpecialCost) (n : Nat) :
    ∃ t m, alu base f a b s = .next t ∧ alu base f a b (s.withTiming c n) = .next (t.withTiming c m) := by
  simp only [alu, evalB_withTiming, evalA_withTiming, readLoc_withTiming, writeLoc_withTiming]
  exact ⟨_, _, rfl, rfl⟩

theorem aluEx_withTiming (base : Nat) (f g : Word → Word → Word) (a : Dst) (b : Src) (s : State) (c : SpecialCost)
    (n : Nat) :
    ∃ t m, aluEx base f g a b s = .next t ∧ aluEx base f g a b (s.withTiming c n) = .next (t.withTiming c m) := by
  simp only [aluEx, evalB_withTiming, evalA_withTiming, readLoc_withTiming, writeLoc_withTiming]
  exact ⟨_, _, rfl, rfl⟩

theorem conditional_withTiming (test : Word → Word → Bool) (a : Dst) (b : Src) (s : State) (c : SpecialCost) (n : Nat) :
    ∃ t m, conditional test a b s = .next t ∧ conditional test a b (s.withTiming c n) = .next (t.withTiming c m) := by
  simp only [conditional, evalB_withTiming, evalA_withTiming, readLoc_withTiming]
  split <;> exact ⟨_, _, rfl, rfl⟩

theorem exec_withTiming (i : Instr) (s : State) (c : SpecialCost) (n : Nat) :
    ∃ t m, exec i s = .next t ∧ exec i (s.withTiming c n) = .next (t.withTiming c m) := by
  cases i with
  | set a b => simp only [exec_set_eq_alu]; exact alu_withTiming _ _ a b s c n
  | mod a b | and a b | bor a b | xor a b => exact alu_withTiming _ _ a b s c n
  | add a b | sub a b | mul a b | mli a b | div a b | dvi a b | shr a b | asr a b | shl a b =>
    exact aluEx_withTiming _ _ _ a b s c n
  | ifb a b | ife a b | ifn a b | ifg a b | ifa a b | ifl a b | ifu a b => exact conditional_withTiming _ a b s c n
  | jsr a =>
    simp only [exec_jsr, opValue_withTiming]
    exact ⟨_, _, rfl, rfl⟩
  | int a =>
    obtain ⟨m, e⟩ := interrupt_withTiming (opValue a s) 0 (evalA a s).2 c n
    simp only [exec_int, opValue_withTiming, evalA_withTiming, e]
    exact ⟨_, _, rfl, rfl⟩
  | lcr a =>
    simp only [exec, execLcr, evalA_withTiming, writeLoc_withTiming]
    exact ⟨_, _, rfl, rfl⟩
  | scr a =>
    simp only [exec_scr, opValue_withTiming, evalA_withTiming]
    exact ⟨_, _, rfl, rfl⟩
  | cli | sti => exact ⟨_, _, rfl, rfl⟩

/-! ### A step -/

theorem boundary_withTiming (s : State) (c : SpecialCost) (n : Nat) :
    ∃ m, boundary (s.withTiming c n) = (boundary s).withTiming c m := by
  cases h : s.extIrq.event 0 with
  | none =>
    have h' : (s.withTiming c n).extIrq.event 0 = none := h
    rw [boundary_of_event_none h, boundary_of_event_none h']
    exact ⟨_, rfl⟩
  | some q =>
    have h' : (s.withTiming c n).extIrq.event 0 = some q := h
    obtain ⟨m, e⟩ := interrupt_withTiming q.number q.argument s c n
    rw [boundary_of_event_some h, boundary_of_event_some h', e]
    exact ⟨_, rfl⟩

theorem fetch_withTiming (s : State) (c : SpecialCost) (n : Nat) :
    fetch (s.withTiming c n) = ((fetch s).1, (fetch s).2.withTiming c n) := rfl

/-- Settles O59: a change of timing passes through the boundary and the fetch, so the two machines decode one word, and
through the instruction it stands for. -/
theorem timingInvisibleToPrograms : Obligations.TimingInvisibleToPrograms := by
  intro s s' h
  obtain ⟨c, n, rfl⟩ := sameButTiming_iff.mp h
  obtain ⟨m, hboundary⟩ := boundary_withTiming s c n
  have hfetch := (congrArg fetch hboundary).trans (fetch_withTiming _ c m)
  cases hdecode : decode (fetch (boundary s)).1 with
  | ok i =>
    obtain ⟨t, k, ht, ht'⟩ := exec_withTiming i (fetch (boundary s)).2 c m
    have hdecode' : decode (fetch (boundary (s.withTiming c n))).1 = .ok i := by rwa [hfetch]
    refine .inl ⟨t, _, (step_of_decode hdecode).trans ht, ?_, sameButTiming_withTiming t c k⟩
    rw [step_of_decode hdecode', hfetch, ht']
  | error why =>
    have hdecode' : decode (fetch (boundary (s.withTiming c n))).1 = .error why := by rwa [hfetch]
    refine .inr ⟨why, _, _, _, step_of_reserved hdecode, ?_, sameButTiming_withTiming _ c m⟩
    rw [step_of_reserved hdecode', hfetch]

end Sys2Proof.Machine
end

section
/-! PROOF. A handler's way back that keeps EX (rule R215). -/

namespace Sys2Proof.Machine

/-- R64: the pop idiom `SET r, POP`. -/
theorem exec_set_reg_pop (r : Reg) (s : State) :
    exec (.set (.reg r) .pop) s = .next (((s.setSp (s.sp + 1)).setReg r (s.read s.sp)).charge 1) := rfl

/-- What the exit of R215 does in any state: it takes PC from the third word of the stack, leaves the stack empty of all
three, and sets IF; the spare register is the only other one written. -/
theorem execAll_handlerExitKeepingEx (junk : Reg) (s : State) :
    ∃ t, execAll (handlerExitKeepingEx junk) s = .next t ∧ t.pc = s.read (s.sp + 2) ∧ t.sp = s.sp + 3 ∧
      t.cr = s.cr ||| 0x0001#16 ∧ t.ex = s.ex ∧ ∀ r, r ≠ junk → t.reg r = s.reg r := by
  have hrun := calc execAll (handlerExitKeepingEx junk) s
    _ = execAll [.set (.reg junk) .pop, .sti, .set .pc .pop] _ := execAll_cons_of_next (exec_set_reg_pop junk s) _
    _ = execAll [.sti, .set .pc .pop] _ := execAll_cons_of_next (exec_set_reg_pop junk _) _
    _ = execAll [.set .pc .pop] _ := execAll_cons_of_next (exec_sti _) _
    _ = execAll [] _ := execAll_cons_of_next (exec_set_pc_pop _) _
  have hsp2 : s.sp + 1 + 1 = s.sp + 2 := BitVec.add_assoc s.sp 1 1
  have hsp3 : s.sp + 2 + 1 = s.sp + 3 := BitVec.add_assoc s.sp 2 1
  refine ⟨_, hrun, ?_, ?_, rfl, rfl, fun r hr => ?_⟩
  · exact congrArg s.read hsp2
  · exact (congrArg (· + 1) hsp2).trans hsp3
  · exact (State.reg_setReg_ne _ _ hr).trans (State.reg_setReg_ne _ _ hr)

/-- Settles O46: the exit of R215 from the stack frame of R185. -/
theorem handlerExitKeepsEx : Obligations.HandlerExitKeepsEx := by
  intro n arg junk s hif hh
  obtain ⟨hsp, -⟩ := interrupt_taken_stack hif hh n arg
  obtain ⟨-, -, hreturn⟩ := handlerStackFrame n arg s hif hh
  obtain ⟨t, ht, htpc, htsp, htcr, htex, htreg⟩ := execAll_handlerExitKeepingEx junk (interrupt n arg s)
  refine ⟨t, ht, htpc.trans hreturn, ?_, ?_, htex.trans (interrupt_ex n arg s), fun r hr => ?_⟩
  · rw [htsp, hsp, BitVec.sub_add_cancel]
  · rw [htcr, interrupt_cr, setBit0_clearBit0_of_set hif]
  · exact (htreg r hr).trans (congrArg (Gpr.get · r) (interrupt_regs n arg s))

end Sys2Proof.Machine
end

section
/-! PROOF. The cycles counted (rules R216, R217). -/

namespace Sys2Proof.Machine

/-! ### Operands -/

/-- R216: an operand costs a cycle for each next word it takes. -/
theorem dstCost_eq_nextWords (a : Dst) : dstCost a = a.nextWords := by cases a <;> rfl

theorem srcCost_eq_nextWords (b : Src) : srcCost b = b.nextWords := by cases b <;> rfl

/-- Settles O58: the cost is the number of next words, which the value code tells. -/
theorem operandCycleCosts : Obligations.OperandCycleCosts :=
  ⟨fun c => (dstCost_eq_nextWords _).trans (codeNextWords_decodeDst c).symm,
    fun c => (srcCost_eq_nextWords _).trans (codeNextWords_decodeSrc c).symm⟩

/-! ### Instructions -/

variable {a : Dst} {b : Src} {s : State}

theorem alu_cycles (base : Nat) (f : Word → Word → Word) :
    ∃ t, alu base f a b s = .next t ∧ t.cycles = s.cycles + base + dstCost a + srcCost b := by
  obtain ⟨t, ht, -, -, -, hcycles⟩ := alu_next base f a b s
  exact ⟨t, ht, by omega⟩

theorem aluEx_cycles (base : Nat) (f g : Word → Word → Word) :
    ∃ t, aluEx base f g a b s = .next t ∧ t.cycles = s.cycles + base + dstCost a + srcCost b := by
  obtain ⟨t, ht, -, -, -, hcycles⟩ := aluEx_next base f g a b s
  exact ⟨t, ht, by omega⟩

theorem conditional_cycles_performs {test : Word → Word → Bool} (h : test (dstValue a b s) (srcValue b s) = true) :
    ∃ t, conditional test a b s = .next t ∧ t.cycles = s.cycles + 2 + dstCost a + srcCost b :=
  ⟨_, conditional_performs h, by simp [Nat.add_assoc]⟩

theorem conditional_cycles_skips {test : Word → Word → Bool} (h : test (dstValue a b s) (srcValue b s) = false) :
    ∃ t, conditional test a b s = .next t ∧ t.cycles = s.cycles + 2 + dstCost a + srcCost b + 1 := by
  refine ⟨_, conditional_skips h, ?_⟩
  simp only [State.charge_cycles, State.setSp_cycles, State.setPc_cycles]
  omega

theorem exec_jsr_cycles : ∃ t, exec (.jsr a) s = .next t ∧ t.cycles = s.cycles + 2 + dstCost a :=
  ⟨_, exec_jsr a s, (Nat.add_assoc _ _ _).symm⟩

/-- Settles O57: the two templates count their base and the operands, and a conditional counts one cycle more where it
skips. -/
theorem instructionCycleCosts : Obligations.InstructionCycleCosts := by
  intro i a b s t ht
  refine ⟨?_, ?_, ?_, fun hcond => ?_, ?_⟩
  · rintro (rfl | rfl | rfl | rfl)
    · exact of_exists_next (alu_cycles 1 fun _ vb => vb) ht
    · exact of_exists_next (alu_cycles 1 andResult) ht
    · exact of_exists_next (alu_cycles 1 borResult) ht
    · exact of_exists_next (alu_cycles 1 xorResult) ht
  · rintro (rfl | rfl | rfl | rfl | rfl | rfl | rfl) <;> exact of_exists_next (aluEx_cycles 2 _ _) ht
  · rintro (rfl | rfl | rfl)
    · exact of_exists_next (aluEx_cycles 3 divResult divEx) ht
    · exact of_exists_next (aluEx_cycles 3 (dviResult s.config.dviRound) (dviEx s.config.dviRound)) ht
    · exact of_exists_next (alu_cycles 3 modResult) ht
  · obtain ⟨test, e, hwrites⟩ := exec_eq_conditional hcond s
    rw [e] at ht
    refine ⟨fun h => ?_, fun h => ?_⟩
    · exact of_exists_next (conditional_cycles_performs (not_not.mp (mt hwrites.mpr h))) ht
    · exact of_exists_next (conditional_cycles_skips (Bool.eq_false_iff.mpr (hwrites.mp h))) ht
  · rintro rfl
    exact of_exists_next exec_jsr_cycles ht

end Sys2Proof.Machine
end

section
/-! PROOF. The end of a run (rules R201, R220, decision D23, log 28): a self-jump comes back to its own address. -/

namespace Sys2Proof.Machine

/-- The three forms of a self-jump. -/
theorem selfJump_cases {s : State} (h : selfJump s = true) :
    (decode (s.read s.pc) = .ok (.set .pc .lit) ∧ s.read (s.pc + 1) = s.pc) ∨
    decode (s.read s.pc) = .ok (.set .pc (.short s.pc)) ∨
    decode (s.read s.pc) = .ok (.sub .pc (.short 1#16)) := by
  unfold selfJump at h
  split at h
  · next hd => exact .inl ⟨hd, of_decide_eq_true h⟩
  · next v hd => exact .inr (.inl (of_decide_eq_true h ▸ hd))
  · next v hd => exact .inr (.inr (of_decide_eq_true h ▸ hd))
  · exact absurd h Bool.false_ne_true

/-- R101 with PC as a and the next word as b. -/
theorem exec_set_pc_lit (s : State) : exec (.set .pc .lit) s = .next ((s.setPc (s.read s.pc)).charge 2) := rfl

theorem exec_set_pc_short (v : Word) (s : State) :
    exec (.set .pc (.short v)) s = .next ((s.setPc v).charge 1) := rfl

/-- R103 with PC as a and a short literal as b. -/
theorem exec_sub_pc_short (v : Word) (s : State) :
    exec (.sub .pc (.short v)) s = .next (((s.setPc (subResult s.pc v)).setEx (subEx s.pc v)).charge 2) := rfl

/-- R103's result is the wrapping difference of words. -/
theorem subResult_eq_sub (va vb : Word) : subResult va vb = va - vb := by
  apply BitVec.eq_of_toNat_eq
  rw [subResult, BitVec.toNat_ofInt, BitVec.toNat_sub]
  omega

/-- A fetched self-jump leaves the state as it was before the fetch, but for EX and the cycles. -/
theorem exec_selfJump {s : State} (h : selfJump s = true) :
    ∃ i ex n, decode (fetch s).1 = .ok i ∧ exec i (fetch s).2 = .next ((s.setEx ex).charge n) := by
  obtain ⟨hd, htarget⟩ | hd | hd := selfJump_cases h
  · have hback : (fetch s).2.read (fetch s).2.pc = s.pc := htarget
    refine ⟨_, s.ex, 2, hd, ?_⟩
    rw [exec_set_pc_lit, hback]
    rfl
  · exact ⟨_, s.ex, 1, hd, exec_set_pc_short _ _⟩
  · have hback : subResult (fetch s).2.pc 1#16 = s.pc := (subResult_eq_sub _ _).trans (BitVec.add_sub_cancel _ _)
    refine ⟨_, subEx (s.pc + 1) 1#16, 2, hd, ?_⟩
    rw [exec_sub_pc_short, hback]
    rfl

/-- Where no interrupt can be taken, a step on a self-jump uses up its slot, writes at most EX and counts cycles. -/
theorem step_of_selfJump {s : State} (hquiet : Quiet s) (h : selfJump s = true) :
    ∃ m ex n, step s = .next (((s.dropSlot.charge m).setEx ex).charge n) := by
  obtain ⟨m, hboundary⟩ := boundary_of_quiet hquiet
  have h' : selfJump (boundary s) = true := by rw [hboundary]; exact h
  obtain ⟨i, ex, n, hdecode, hexec⟩ := exec_selfJump h'
  exact ⟨m, ex, n, hboundary ▸ (step_of_decode hdecode).trans hexec⟩

/-- Settles O60: an ended run has a quiet boundary; RAM and PC, all that makes a self-jump, stay, and an exhausted schedule
stays exhausted. -/
theorem endedRunStaysEnded : Obligations.EndedRunStaysEnded := by
  rintro s ⟨hjump, hend⟩
  have hquiet : Quiet s := hend.elim (fun hexhausted => .inr (hexhausted 0)) .inl
  obtain ⟨m, ex, n, hstep⟩ := step_of_selfJump hquiet hjump
  exact ⟨_, hstep, ⟨hjump, hend.imp_left Schedule.Exhausted.rest⟩, rfl, rfl, rfl, rfl, rfl⟩

end Sys2Proof.Machine
end

section
/-! PROOF. The round trip from an instruction, and words written out by hand (rules R52, R53, R56, R57, R71 to R82). -/

namespace Sys2Proof.Machine

/-- Settles O1: the formats keep the fields apart, the value codes of well-formed operands decode to them, and the opcode
tables invert each other row by row. -/
theorem decodeOfEncode : Obligations.DecodeOfEncode :=
  fun _ hwf => decode_encode hwf

/-- Settles O4: the decoder evaluated at each of the nine words, with no use of the encoder. -/
theorem writtenWordsDecode : Obligations.WrittenWordsDecode :=
  ⟨rfl, rfl, rfl, rfl, rfl, rfl, rfl, rfl, rfl⟩

end Sys2Proof.Machine
end

section
/-! PROOF. Canonical RAM at the start of a run (rules R22, R25, log 6). -/

namespace Sys2Proof.Machine

/-- A boot stores its image into the empty RAM of reset. -/
theorem boot_wf (image : List Word) : RamCanonical (State.boot image) :=
  Memory.load_wf Memory.nil_wf _ _

/-- Settles O52: RAM is empty at reset, and a launch has the RAM of a boot. -/
theorem launchRamCanonical : Obligations.LaunchRamCanonical :=
  ⟨Memory.nil_wf, fun _ _ image => boot_wf image⟩

end Sys2Proof.Machine
end
